-- ==== Sys2Proof/Word.lean ====
section
/-! DEFINITION. Word.lean: the words of the block (spec/00_scope.md R2, R5; spec/30_encoding.md R31). All are unsigned. -/

namespace Sys2Proof

/-- A `k`-bit unsigned unit or register value (R21, R10). Every pattern is legal (R12). -/
abbrev Word (k : Nat) := BitVec k

/-- A command word: `k + 2` bits (R31). -/
abbrev CmdWord (k : Nat) := BitVec (k + 2)

/-- The modulus `M = 2^k - 1` (R2). As a `k`-bit pattern it is all ones. -/
def modulus (k : Nat) : Nat := 2 ^ k - 1

end Sys2Proof
end

