-- ==== Sys2Proof/Config.lean ====
section
/-! DEFINITION. Config.lean: what is fixed when an instance is built (spec/00_scope.md R2, R5): the variant, and for a
deferred-reduction implementation the pair `(A, N)` (spec/46_deferred_reduction.md R71, R74, R77).
The spec leaves no command result undefined, so there is no opaque free value here. -/

namespace Sys2Proof

/-- The three required instantiations, and no other (R2). -/
inductive Variant where
  | fletcher16
  | fletcher32
  | fletcher64
deriving DecidableEq, Repr

/-- The unit width `k` of a variant (R2, R5). -/
def Variant.k : Variant → Nat
  | .fletcher16 => 8
  | .fletcher32 => 16
  | .fletcher64 => 32

/-- The checksum width `W = 2k` of a variant (R2). -/
def Variant.checksumWidth (v : Variant) : Nat := 2 * v.k

/-- R74: a batch of `n` units that starts fully folded cannot overflow `A`-bit accumulators. -/
def batchFits (A k n : Nat) : Bool := decide (modulus k * (n + 1) * (n + 2) / 2 ≤ 2 ^ A - 1)

/-- R71, R77: `(A, N)` is an implementation of this block: a batch holds at least one unit and cannot overflow.
(That `A ≥ k` follows: `Sys2Proof.Batch.width_le`.) -/
def batchLegal (k A N : Nat) : Bool := decide (1 ≤ N) && batchFits A k N

/-- The parameters of a deferred-reduction implementation (R71). The proof field is R77 and I5: a pair that violates the
bound is rejected when it is built, so no state can hold one. -/
structure Batch (k : Nat) where
  /-- the physical width of the accumulators -/
  A : Nat
  /-- units between mandatory folds -/
  N : Nat
  legal : batchLegal k A N = true
deriving DecidableEq, Repr

/-- R77, I5: build a batch from `(A, N)`, or reject the pair. -/
def Batch.build (k A N : Nat) : Option (Batch k) :=
  if h : batchLegal k A N = true then some ⟨A, N, h⟩ else none

/-- How the sums are held (R5, R18, R70): eagerly folded, or deferred with a legal batch and the implementation's own
choices of early folds, one a step (log 7). -/
inductive Build (k : Nat) where
  | eager
  | deferred (batch : Batch k) (foldChoices : List Bool)
deriving DecidableEq, Repr

/-- The variant of `State.reset`. DESIGN CHOICE (log 1): the spec requires all three and names none first; this is the
one the source gives a numeric vector for. -/
def resetVariant : Variant := .fletcher16

end Sys2Proof
end

