-- ==== Sys2Proof/Syntax.lean ====
section
/-! DEFINITION. Syntax.lean: the commands (spec/30_encoding.md R32, one constructor per row of spec/opcode_table.json), the
pseudo-instructions (R39) and the lines of a source file (R38). -/

namespace Sys2Proof

/-- The four commands (R32). UPD alone has an operand, the unit (R33); the width of the instance bounds it
(WellFormed.lean, log 9). -/
inductive Instr where
  /-- UPD: absorb one unit (R50). -/
  | upd (x : Nat)
  /-- VAL: report the checksum (R55). -/
  | val
  /-- RST: return to the empty state (R58). -/
  | rst
  /-- CHK: solve for the two check values (R60). -/
  | chk
deriving DecidableEq, Repr

/-- The pseudo-instructions (R39). None has an opcode. -/
inductive Pseudo where
  /-- `update` with a sequence of units (R66) -/
  | upds (units : List Nat)
  /-- the one-shot checksum (R67) -/
  | calc (units : List Nat)
  /-- the one-shot check values (R68) -/
  | checkValues (units : List Nat)
  /-- construct (R69) -/
  | new
deriving DecidableEq, Repr

/-- One line of a source file (R38), comment taken off. -/
inductive Line where
  | blank
  | width (w : Nat)
  | instr (i : Instr)
  | pseudo (p : Pseudo)
deriving DecidableEq, Repr

end Sys2Proof
end

