-- ==== Sys2Proof/WellFormed.lean ====
section
/-! DEFINITION. WellFormed.lean: a unit fits the unit width (spec/20_memory.md R21, spec/60_exceptions.md R81). -/

namespace Sys2Proof

/-- R21, R38: a unit is in `[0, M]`. -/
def unitFits (k x : Nat) : Bool := decide (x ≤ modulus k)

/-- The operands of a command fit an instance of unit width `k`. -/
def Instr.wellFormed (k : Nat) : Instr → Bool
  | .upd x => unitFits k x
  | .val => true
  | .rst => true
  | .chk => true

/-- The operands of a pseudo-instruction fit an instance of unit width `k`. -/
def Pseudo.wellFormed (k : Nat) : Pseudo → Bool
  | .upds us => us.all (unitFits k)
  | .calc us => us.all (unitFits k)
  | .checkValues us => us.all (unitFits k)
  | .new => true

end Sys2Proof
end

