-- ==== Sys2Proof/Decode.lean ====
section
/-! DEFINITION. Decode.lean: command words to commands and back (spec/30_encoding.md R31 to R34). The block sees command
words, never bytes (spec/20_memory.md R20, R22), so decoding is from a word; it is total and rejects nothing, because no word is reserved or
illegal (R34). -/

namespace Sys2Proof

/-- `cmd[1:0]`, the operation code (R31). -/
def opField {k : Nat} (cmd : CmdWord k) : BitVec 2 := cmd.extractLsb' 0 2

/-- `cmd[k+1:2]`, the data field: the unit, unsigned, neither extended nor scaled (R31, R33). -/
def dataField {k : Nat} (cmd : CmdWord k) : Word k := cmd.extractLsb' 2 k

/-- R32, R33: the command of a word. VAL, RST and CHK ignore the data field. -/
def decode {k : Nat} (cmd : CmdWord k) : Instr :=
  match (opField cmd).toFin with
  | 0 => .upd (dataField cmd).toNat
  | 1 => .val
  | 2 => .rst
  | 3 => .chk

/-- R31: `cmd = (data << 2) | op`. -/
def commandWord {k : Nat} (data : Word k) (op : BitVec 2) : CmdWord k := data ++ op

/-- R32: the operation code of a command. -/
def Instr.op : Instr → BitVec 2
  | .upd _ => 0b00#2
  | .val => 0b01#2
  | .rst => 0b10#2
  | .chk => 0b11#2

/-- R33, R38: the data field the assembler emits: the unit for UPD, 0 for the others. -/
def Instr.data (k : Nat) : Instr → Word k
  | .upd x => BitVec.ofNat k x
  | .val => 0
  | .rst => 0
  | .chk => 0

/-- R38: the command word of a command, for unit width `k`. -/
def encode (k : Nat) (i : Instr) : CmdWord k := commandWord (i.data k) i.op

/-- The command decoded from a table word, on the port of the variant of `State.reset` (log 10). A number that
does not fit the `k + 2` bit port cannot be presented on it: none. -/
def decodeTableWord (nbits w : Nat) : Option Instr :=
  if w % 2 ^ nbits < 2 ^ (resetVariant.k + 2) then
    some (decode (BitVec.ofNat (resetVariant.k + 2) (w % 2 ^ nbits)))
  else none

end Sys2Proof
end

