-- ==== Sys2Proof/Machine/Flags.lean ====
section
/-! DEFINITION. Machine/Flags.lean: the conditions the block computes. It stores no flag (spec/10_state.md R16); inside a command it
tests only a carry out of bit `k-1` and the three comparisons of spec/40_arithmetic.md R49. -/

namespace Sys2Proof.Machine

/-- The `(k+1)`-bit sum `s` of the adder (R42); it cannot overflow. -/
def wideSum {k : Nat} (a b : Word k) : BitVec (k + 1) := a.setWidth (k + 1) + b.setWidth (k + 1)

/-- `s[k]`, the carry out of bit `k-1`, always added back in (R42, R48). -/
def carryOut {k : Nat} (a b : Word k) : Bool := (wideSum a b).getLsbD k

/-- `v > M`: another fold pass is needed (R40, R49). -/
def needsFold (k v : Nat) : Bool := decide (modulus k < v)

/-- `v = M`, the all-ones detector (R44, R49). -/
def isAllOnes {k : Nat} (v : Word k) : Bool := v == BitVec.allOnes k

/-- `a + b >= M`, the condition of the conditional subtract (R45, R49). -/
def reachesModulus {k : Nat} (a b : Word k) : Bool := decide (modulus k ≤ a.toNat + b.toNat)

end Sys2Proof.Machine
end

