-- ==== Sys2Proof/Machine/Arithmetic.lean ====
section
/-! DEFINITION. Machine/Arithmetic.lean: the modular one's-complement adder and its companions (spec/40_arithmetic.md). -/

namespace Sys2Proof.Machine

/-- One pass of the fold: `(v & M) + (v >> k)` (R40). -/
def foldPass (k v : Nat) : Nat := (v &&& modulus k) + (v >>> k)

/-- The fold as R40 writes it, a loop; `fuel` bounds the passes, and `v` passes are always enough. -/
def foldLoop (k : Nat) : Nat → Nat → Nat
  | 0, v => v
  | fuel + 1, v => if needsFold k v then foldLoop k fuel (foldPass k v) else v

/-- `fold_k(v)` by the closed form `F_k` of R41 law 4, the form R40 asks a model to use: a positive multiple of `M` folds to `M`,
everything else to its remainder. -/
def fold (k v : Nat) : Nat := if v = 0 then 0 else (v - 1) % modulus k + 1

/-- `ocadd_k(a, b)` (R42): the carry out is added back in at bit 0. -/
def ocadd {k : Nat} (a b : Word k) : Word k :=
  (wideSum a b).setWidth k + BitVec.ofNat k (carryOut a b).toNat

/-- `canon_k(v)` (R44): the residue; the all-ones pattern becomes 0. -/
def canon {k : Nat} (v : Word k) : Word k := if isAllOnes v then 0 else v

/-- `modadd_k(a, b)` (R45): one conditional subtract. -/
def modadd {k : Nat} (a b : Word k) : Word k :=
  BitVec.ofNat k (if reachesModulus a b then a.toNat + b.toNat - modulus k else a.toNat + b.toNat)

/-- `ocneg_k(v) = M - v`, the complement (R46). -/
def ocneg {k : Nat} (v : Word k) : Word k := ~~~v

/-- One check value from a remainder `t` (R60): `C := M - t`, then `0` if that is `M`. -/
def checkValue {k : Nat} (t : Word k) : Word k :=
  if isAllOnes (BitVec.allOnes k - t) then 0 else BitVec.allOnes k - t

/-- `C0` of R60 from the two residues. -/
def check0 {k : Nat} (s1 s2 : Word k) : Word k := checkValue (modadd s1 s2)

/-- `C1` of R60 from the first residue and the adjusted `C0`. -/
def check1 {k : Nat} (s1 c0 : Word k) : Word k := checkValue (modadd s1 c0)

end Sys2Proof.Machine
end

