-- ==== Sys2Proof/Machine/State.lean ====
section
/-! DEFINITION. Machine/State.lean: the state of one instance (spec/10_state.md; spec/46_deferred_reduction.md R71; the port of
spec/30_encoding.md R30), its reset, and the reasons a step can stop. Plain data; every list of it is in INVENTORY.md, `## State`. -/

namespace Sys2Proof.Machine

/-- What the host drives in one step (R30). `cmd` is ignored when `cmdValid` is false. -/
structure PortIn (k : Nat) where
  rst : Bool
  cmdValid : Bool
  cmd : CmdWord k
deriving DecidableEq, Repr

/-- A response (R35): VALUE, a `W`-bit number, or CHECK, two units. -/
inductive Rsp (k : Nat) where
  | value (v : BitVec (2 * k))
  | check (c0 c1 : Word k)
deriving DecidableEq, Repr

/-- The hidden state of a deferred-reduction implementation, which replaces `sum1`, `sum2` (R18, R71). -/
structure Hidden (k : Nat) where
  /-- the build's `A` and `N` -/
  batch : Batch k
  /-- unreduced representative of `sum1`, `A` bits -/
  acc1 : BitVec batch.A
  /-- unreduced representative of `sum2`, `A` bits -/
  acc2 : BitVec batch.A
  /-- units absorbed since both accumulators were last fully folded -/
  cnt : Nat
  /-- the implementation's remaining free choices: does it fold early in this coming step? (R72, R73, I11; log 7) -/
  foldChoices : List Bool
deriving DecidableEq, Repr

/-- The accumulators: the two architectural registers (R10, R11), or the wide ones that replace them (R18, R71). -/
inductive Accs (k : Nat) where
  | eager (sum1 sum2 : Word k)
  | deferred (h : Hidden k)
deriving DecidableEq, Repr

structure State where
  /-- the build's width (R2, R5); no step changes it -/
  variant : Variant
  /-- false from power-up until the first reset: the registers then hold no value (R92, I4) -/
  hasValue : Bool
  /-- `sum1` and `sum2`, or the accumulators that replace them -/
  accs : Accs variant.k
  /-- what the host presents in the coming steps, the next one first (R26, R30; log 3) -/
  inputs : List (PortIn variant.k)
  /-- the response of the step just taken; none is `rsp_valid = 0` (R35, I3; log 4) -/
  rsp : Option (Rsp variant.k)
deriving DecidableEq, Repr

/-- There is no fault (R80, R85): the block raises nothing. Nobody raises one; an empty type is safe and exact. -/
inductive Fault where
deriving DecidableEq, Repr

inductive Refusal where
  /-- Raised by an arm of `exec` whose instruction has no meaning yet; none is left. Safe. -/
  | notModelled (mnemonic : String)
  /-- Raised by VAL and CHK while the registers hold no value: before the first reset they "have no defined response"
  (R92; I4: "`refuse`"). Safe. -/
  | beforeFirstReset
deriving DecidableEq, Repr

/-- The accumulators of a build in the empty state: all zero (R17, R72, R90). -/
def Accs.ofBuild {k : Nat} : Build k → Accs k
  | .eager => .eager 0 0
  | .deferred batch foldChoices => .deferred { batch, acc1 := 0, acc2 := 0, cnt := 0, foldChoices }

/-- The machine of any build right after reset (R17, R90), nothing presented to it yet. -/
abbrev State.resetOf (v : Variant) (b : Build v.k) : State :=
  { variant := v, hasValue := true, accs := .ofBuild b, inputs := [], rsp := none }

/-- The machine after power-up and before the first reset: the registers hold no value (R92). What lies in `accs` then is
any pattern at all, and no command reads it. -/
abbrev State.powerUp (v : Variant) (accs : Accs v.k) : State :=
  { variant := v, hasValue := false, accs, inputs := [], rsp := none }

/-- The machine right after reset: `sum1 = sum2 = 0` (R17, R90). The variant is log 1's, the eager build log 2's. -/
def State.reset : State := State.resetOf resetVariant .eager

end Sys2Proof.Machine
end

