-- ==== Sys2Proof/Machine/Deferred.lean ====
section
/-! DEFINITION. Machine/Deferred.lean: the deferred-reduction implementation (spec/46_deferred_reduction.md). -/

namespace Sys2Proof.Machine

/-- The register `sum1` a deferred implementation presents: `fold(acc1)` (R18, R76). -/
def Hidden.sum1 {k : Nat} (h : Hidden k) : Word k := BitVec.ofNat k (fold k h.acc1.toNat)

/-- The register `sum2` a deferred implementation presents: `fold(acc2)` (R18, R76). -/
def Hidden.sum2 {k : Nat} (h : Hidden k) : Word k := BitVec.ofNat k (fold k h.acc2.toNat)

/-- Fold both accumulators together and clear the count (R72). -/
def Hidden.foldBoth {k : Nat} (h : Hidden k) : Hidden k :=
  { h with
    acc1 := BitVec.ofNat h.batch.A (fold k h.acc1.toNat)
    acc2 := BitVec.ofNat h.batch.A (fold k h.acc2.toNat)
    cnt := 0 }

/-- The mandatory fold before the `(N+1)`-th unit of a batch (R72). -/
def Hidden.foldWhenFull {k : Nat} (h : Hidden k) : Hidden k :=
  if h.cnt = h.batch.N then h.foldBoth else h

/-- Plain `A`-bit additions, no reduction; `acc2` absorbs the new `acc1` (R72). -/
def Hidden.addUnit {k : Nat} (h : Hidden k) (x : Word k) : Hidden k :=
  { h with
    acc1 := h.acc1 + x.setWidth h.batch.A
    acc2 := h.acc2 + (h.acc1 + x.setWidth h.batch.A)
    cnt := h.cnt + 1 }

/-- UPD on the deferred machine (R72). -/
def Hidden.absorb {k : Nat} (h : Hidden k) (x : Word k) : Hidden k := h.foldWhenFull.addUnit x

/-- RST and hardware reset on the deferred machine (R72). -/
def Hidden.clear {k : Nat} (h : Hidden k) : Hidden k := { h with acc1 := 0, acc2 := 0, cnt := 0 }

/-- The implementation's free choice for this step: fold early, or not (R72, R73, I11; log 7). -/
def Hidden.foldByChoice {k : Nat} (h : Hidden k) : Hidden k :=
  match h.foldChoices with
  | [] => h
  | true :: rest => { h.foldBoth with foldChoices := rest }
  | false :: rest => { h with foldChoices := rest }

/-- Search for `Nmax` bit by bit, from bit `bits - 1` down, above the part `n` already found. -/
def nmaxFrom (A k : Nat) : Nat → Nat → Nat
  | 0, n => n
  | bits + 1, n => nmaxFrom A k bits (if batchFits A k (n + 2 ^ bits) then n + 2 ^ bits else n)

/-- `Nmax(A, k)` (R74): the largest batch that cannot overflow, 0 if there is none. -/
def nmax (A k : Nat) : Nat := nmaxFrom A k A 0

end Sys2Proof.Machine
end

