-- ==== Sys2Proof/Machine/Operands.lean ====
section
/-! DEFINITION. Machine/Operands.lean: the one operand form (spec/30_encoding.md R33). -/

namespace Sys2Proof.Machine

/-- The unit of a UPD as the `k`-bit data field carries it, unsigned (R31, R33). A number wider than `k` bits is not well
formed and no command word decodes to it; the field would carry its low `k` bits (R81; log 9). -/
def unitOperand (k x : Nat) : Word k := BitVec.ofNat k x

end Sys2Proof.Machine
end

