-- ==== Sys2Proof/Machine/Ops.lean ====
section
/-! DEFINITION. Machine/Ops.lean: the named operations over the accumulators and the port, which the meanings and the step call.
There is no memory (spec/20_memory.md R20) and no exception to take or return from (spec/60_exceptions.md R80, R85). -/

namespace Sys2Proof.Machine

/-- The register `sum1` (R10), whatever implementation holds it (R18). -/
def Accs.sum1 {k : Nat} : Accs k → Word k
  | .eager sum1 _ => sum1
  | .deferred h => h.sum1

/-- The register `sum2` (R11), whatever implementation holds it (R18). -/
def Accs.sum2 {k : Nat} : Accs k → Word k
  | .eager _ sum2 => sum2
  | .deferred h => h.sum2

/-- Absorb one unit: R50 on the registers (`sum2` takes the NEW `sum1`, R51), R72 on the wide accumulators. -/
def Accs.absorb {k : Nat} (x : Word k) : Accs k → Accs k
  | .eager sum1 sum2 => .eager (ocadd sum1 x) (ocadd sum2 (ocadd sum1 x))
  | .deferred h => .deferred (h.absorb x)

/-- The empty state (R17): the pattern 0, and the hidden state cleared (R58, R72). -/
def Accs.clear {k : Nat} : Accs k → Accs k
  | .eager _ _ => .eager 0 0
  | .deferred h => .deferred h.clear

/-- A deferred implementation's free choice for this step (log 7); the eager one has none. -/
def Accs.foldByChoice {k : Nat} : Accs k → Accs k
  | .eager sum1 sum2 => .eager sum1 sum2
  | .deferred h => .deferred h.foldByChoice

/-- The VALUE word `(s2 << k) | s1` (R36). -/
def valueWord {k : Nat} (s1 s2 : Word k) : BitVec (2 * k) :=
  (s2.setWidth (2 * k) <<< k) ||| s1.setWidth (2 * k)

/-- The VALUE response of the accumulators (R55, R73): both sums reduced to residues. -/
def Accs.valueRsp {k : Nat} (a : Accs k) : Rsp k := .value (valueWord (canon a.sum1) (canon a.sum2))

/-- The CHECK response of the accumulators (R60, R73). -/
def Accs.checkRsp {k : Nat} (a : Accs k) : Rsp k :=
  .check (check0 (canon a.sum1) (canon a.sum2))
    (check1 (canon a.sum1) (check0 (canon a.sum1) (canon a.sum2)))

/-- `rsp_hi` (R35, R36, R37). -/
def Rsp.hi {k : Nat} : Rsp k → Word k
  | .value v => v.extractLsb' k k
  | .check _ c1 => c1

/-- `rsp_lo` (R35, R36, R37). -/
def Rsp.lo {k : Nat} : Rsp k → Word k
  | .value v => v.extractLsb' 0 k
  | .check c0 _ => c0

/-- A response as the host reads it, two numbers (R35). -/
structure Response where
  hi : Nat
  lo : Nat
deriving DecidableEq, Repr

/-- `sum1` of a state. -/
def State.sum1 (s : State) : Word s.variant.k := s.accs.sum1

/-- `sum2` of a state. -/
def State.sum2 (s : State) : Word s.variant.k := s.accs.sum2

/-- `rsp_valid` (R30). -/
def State.rspValid (s : State) : Bool := s.rsp.isSome

/-- What the host reads in this step: nothing while `rsp_valid = 0` (R30, I3). -/
def State.response (s : State) : Option Response := s.rsp.map fun r => ⟨r.hi.toNat, r.lo.toNat⟩

/-- The same state with other accumulators. -/
abbrev State.setAccs (s : State) (a : Accs s.variant.k) : State := { s with accs := a }

/-- The same state with other inputs to come. -/
abbrev State.setInputs (s : State) (l : List (PortIn s.variant.k)) : State := { s with inputs := l }

/-- A step without a response: `rsp_valid = 0` (R35). -/
abbrev State.silent (s : State) : State := { s with rsp := none }

/-- A step that responds (R35). -/
abbrev State.respond (s : State) (r : Rsp s.variant.k) : State := { s with rsp := some r }

/-- The empty state, established by RST and by hardware reset alike (R17, R58, R91), from any state (R92). -/
abbrev State.empty (s : State) : State := { s with hasValue := true, accs := s.accs.clear, rsp := none }

/-- The free early fold at the start of a step (R72, R73; log 7). -/
abbrev State.foldByChoice (s : State) : State := s.setAccs s.accs.foldByChoice

/-- Put a command on the port for the very next step, in place of what would have been there. -/
abbrev State.presentWord (s : State) (w : Nat) : State :=
  s.setInputs ({ rst := false, cmdValid := true, cmd := BitVec.ofNat (s.variant.k + 2) w } :: s.inputs.tail)

end Sys2Proof.Machine
end

