-- ==== Sys2Proof/Machine/CheckValues.lean ====
section
/-! DEFINITION. Machine/CheckValues.lean: CHK (spec/44_check_values.md). -/

namespace Sys2Proof.Machine

/-- CHK (R60, R61): respond with the two check values; nothing else changes. On registers without value there is no
response to give (R92, I4). -/
def execChk (s : State) : Host.Outcome State Fault Refusal :=
  if s.hasValue then .next (s.respond s.accs.checkRsp) else .refused .beforeFirstReset

end Sys2Proof.Machine
end

