-- ==== Sys2Proof/Machine/Reset.lean ====
section
/-! DEFINITION. Machine/Reset.lean: RST (spec/43_reset_cmd.md). -/

namespace Sys2Proof.Machine

/-- RST (R58): the empty state, from any state, one that was never reset included (R92). No response. -/
def execRst (s : State) : Host.Outcome State Fault Refusal := .next s.empty

end Sys2Proof.Machine
end

