-- ==== Sys2Proof/Machine/Update.lean ====
section
/-! DEFINITION. Machine/Update.lean: UPD (spec/41_update.md). -/

namespace Sys2Proof.Machine

/-- UPD (R50, R51): absorb the unit; no response. Registers without value stay without value (R92). -/
def execUpd (x : Nat) (s : State) : Host.Outcome State Fault Refusal :=
  if s.hasValue then .next (s.setAccs (s.accs.absorb (unitOperand s.variant.k x))).silent
  else .next s.silent

end Sys2Proof.Machine
end

