-- ==== Sys2Proof/Machine/Value.lean ====
section
/-! DEFINITION. Machine/Value.lean: VAL (spec/42_value.md). -/

namespace Sys2Proof.Machine

/-- VAL (R55, R56): respond with the checksum; nothing else changes. On registers without value there is no response to
give (R92, I4). -/
def execVal (s : State) : Host.Outcome State Fault Refusal :=
  if s.hasValue then .next (s.respond s.accs.valueRsp) else .refused .beforeFirstReset

end Sys2Proof.Machine
end

