-- ==== Sys2Proof/Machine/Dispatch.lean ====
section
/-! DEFINITION. Machine/Dispatch.lean: one arm per command (spec/30_encoding.md R32). -/

namespace Sys2Proof.Machine

def exec (i : Instr) (s : State) : Host.Outcome State Fault Refusal :=
  match i with
  | .upd x => Sys2Proof.Machine.execUpd x s
  | .val => Sys2Proof.Machine.execVal s
  | .rst => Sys2Proof.Machine.execRst s
  | .chk => Sys2Proof.Machine.execChk s

end Sys2Proof.Machine
end

