-- ==== Sys2Proof/Machine/Step.lean ====
section
/-! DEFINITION. Machine/Step.lean: one step of the block (spec/00_scope.md R6, spec/30_encoding.md R30). -/

namespace Sys2Proof.Machine

/-- What one port input does (R30): a hardware reset, which wins (R84, R91); else the command, if there is one; else nothing. -/
def stepInput (s : State) (p : PortIn s.variant.k) : Host.Outcome State Fault Refusal :=
  if p.rst then .next s.empty
  else if p.cmdValid then exec (decode p.cmd) s
  else .next s.silent

/-- One step: take the next port input; with none left to present, an idle step (R89, R99). A deferred implementation
may first fold early (R72; log 7). -/
def step (s : State) : Host.Outcome State Fault Refusal :=
  match s.inputs with
  | [] => .next s.foldByChoice.silent
  | p :: rest => stepInput (s.foldByChoice.setInputs rest) p

/-- `s` with that word on the command port in its very next step, `rst = 0` and `cmd_valid = 1` (log 10). -/
abbrev State.withFetchWord (s : State) (nbits w : Nat) : State := s.presentWord (w % 2 ^ nbits)

end Sys2Proof.Machine
end

