-- ==== Sys2Proof/Machine/Sequences.lean ====
section
/-! DEFINITION. Machine/Sequences.lean: command lists, their runs, and the pseudo-instructions (spec/20_memory.md R26,
spec/45_oneshot_sequences.md, spec/70_reset_and_hazards.md R99). -/

namespace Sys2Proof.Machine

/-- UPDS: one UPD a unit, in order; nothing for no unit (R66). -/
def updAll (units : List Nat) : List Instr := units.map Instr.upd

/-- The command list a pseudo-instruction stands for (R39). NEW is "hardware reset, or `RST`" (R69); as a command it is RST. -/
def expand : Pseudo → List Instr
  | .upds us => updAll us
  | .calc us => .rst :: (updAll us ++ [.val])
  | .checkValues us => .rst :: (updAll us ++ [.chk])
  | .new => [.rst]

/-- The result of a run on a command list: the final state and the responses in order (R26, R99). A refusal ends it. -/
def run : List Instr → State → Host.Outcome (State × List Response) Fault Refusal
  | [], s => .next (s, [])
  | i :: is, s =>
    match exec i s with
    | .fault r => .fault r
    | .refused r => .refused r
    | .next t =>
      match run is t with
      | .fault r => .fault r
      | .refused r => .refused r
      | .next (u, rs) => .next (u, t.response.toList ++ rs)

/-- The same run seen at the port: `n` steps, and the responses in order. -/
def runSteps : Nat → State → Host.Outcome (State × List Response) Fault Refusal
  | 0, s => .next (s, [])
  | n + 1, s =>
    match step s with
    | .fault r => .fault r
    | .refused r => .refused r
    | .next t =>
      match runSteps n t with
      | .fault r => .fault r
      | .refused r => .refused r
      | .next (u, rs) => .next (u, t.response.toList ++ rs)

/-- A command on the port (R30, R31). -/
def commandInput (k : Nat) (i : Instr) : PortIn k := { rst := false, cmdValid := true, cmd := encode k i }

/-- The host presents a command list, one command a step, after whatever it presents already. -/
def State.present (s : State) (is : List Instr) : State :=
  s.setInputs (s.inputs ++ is.map (commandInput s.variant.k))

end Sys2Proof.Machine
end

