-- ==== Sys2Proof/Machine/Assembler.lean ====
section
/-! DEFINITION. Machine/Assembler.lean: the text form of a command list, assembled and disassembled (spec/30_encoding.md R38,
R39). What R38 leaves open of the text is log 16's. -/

namespace Sys2Proof.Machine

/-- What an assembler refuses a source file for; none of these is a run-time event (R38, R81). -/
inductive AsmError where
  /-- a line that is none of R38's or R39's forms -/
  | badLine
  /-- `.width` of anything but 16, 32, 64 -/
  | badWidth
  /-- the width is not stated before the first command, or is stated twice -/
  | widthNotOnce
  /-- a unit that does not fit `k` bits -/
  | unitTooWide
deriving DecidableEq, Repr

inductive Token where
  | word (cs : List Char)
  | comma
deriving DecidableEq, Repr

def isBlankChar (c : Char) : Bool := c == ' ' || c == '\t' || c == '\r'

/-- A word just read, if it has a character. -/
def wordToken (cs : List Char) : List Token := if cs.isEmpty then [] else [.word cs]

/-- The tokens of a line; `cur` is the word being read. `;` starts a comment (R38). -/
def tokens (cur : List Char) : List Char → List Token
  | [] => wordToken cur
  | c :: cs =>
    if c == ';' then wordToken cur
    else if isBlankChar c then wordToken cur ++ tokens [] cs
    else if c == ',' then wordToken cur ++ .comma :: tokens [] cs
    else tokens (cur ++ [c]) cs

/-- The lines of a text. -/
def splitLines (cur : List Char) : List Char → List (List Char)
  | [] => [cur]
  | c :: cs => if c == '\n' then cur :: splitLines [] cs else splitLines (cur ++ [c]) cs

/-- A hexadecimal digit's value. -/
def digitValue (c : Char) : Option Nat :=
  if '0' ≤ c ∧ c ≤ '9' then some (c.toNat - '0'.toNat)
  else if 'a' ≤ c ∧ c ≤ 'f' then some (c.toNat - 'a'.toNat + 10)
  else if 'A' ≤ c ∧ c ≤ 'F' then some (c.toNat - 'A'.toNat + 10)
  else none

/-- Digits in a base, most significant first, after `acc`. -/
def digitsValue (base acc : Nat) : List Char → Option Nat
  | [] => some acc
  | c :: cs =>
    match digitValue c with
    | none => none
    | some d => if d < base then digitsValue base (base * acc + d) cs else none

/-- A number, hex with `0x` or decimal (R38). -/
def number : List Char → Option Nat
  | '0' :: 'x' :: c :: cs => digitsValue 16 0 (c :: cs)
  | c :: cs => digitsValue 10 0 (c :: cs)
  | [] => none

/-- Units separated by commas, at least one. -/
def unitList : List Token → Option (List Nat)
  | [.word w] => (number w).map fun x => [x]
  | .word w :: .comma :: rest =>
    match number w, unitList rest with
    | some x, some xs => some (x :: xs)
    | _, _ => none
  | _ => none

/-- Units separated by commas, none allowed (R66, `n >= 0`). -/
def unitsOrNone : List Token → Option (List Nat)
  | [] => some []
  | t :: ts => unitList (t :: ts)

/-- One line (R38, R39). -/
def parseLine : List Token → Except AsmError Line
  | [] => .ok .blank
  | .comma :: _ => .error .badLine
  | .word w :: rest =>
    if w = "UPD".toList then
      match rest with
      | [.word u] => (number u).elim (.error .badLine) fun x => .ok (.instr (.upd x))
      | _ => .error .badLine
    else if w = "VAL".toList then if rest.isEmpty then .ok (.instr .val) else .error .badLine
    else if w = "RST".toList then if rest.isEmpty then .ok (.instr .rst) else .error .badLine
    else if w = "CHK".toList then if rest.isEmpty then .ok (.instr .chk) else .error .badLine
    else if w = "NEW".toList then if rest.isEmpty then .ok (.pseudo .new) else .error .badLine
    else if w = "UPDS".toList then (unitsOrNone rest).elim (.error .badLine) fun us => .ok (.pseudo (.upds us))
    else if w = "CALC".toList then (unitsOrNone rest).elim (.error .badLine) fun us => .ok (.pseudo (.calc us))
    else if w = "CHECKVALUES".toList then
      (unitsOrNone rest).elim (.error .badLine) fun us => .ok (.pseudo (.checkValues us))
    else if w = ".width".toList then
      match rest with
      | [.word u] => (number u).elim (.error .badLine) fun x => .ok (.width x)
      | _ => .error .badLine
    else .error .badLine

/-- The variant of a stated checksum width (R2, R38). -/
def variantOfWidth (w : Nat) : Except AsmError Variant :=
  if w = 16 then .ok .fletcher16 else if w = 32 then .ok .fletcher32 else if w = 64 then .ok .fletcher64
  else .error .badWidth

/-- The command words of one line, for unit width `k`; a unit that does not fit is refused here (R38, R81). -/
def assembleLine (k : Nat) : Line → Except AsmError (List (CmdWord k))
  | .blank => .ok []
  | .width _ => .error .widthNotOnce
  | .instr i => if i.wellFormed k then .ok [encode k i] else .error .unitTooWide
  | .pseudo p => if p.wellFormed k then .ok ((expand p).map (encode k)) else .error .unitTooWide

/-- The command words of lines that follow the `.width` line. -/
def assembleLines (k : Nat) : List Line → Except AsmError (List (CmdWord k))
  | [] => .ok []
  | l :: ls =>
    match assembleLine k l, assembleLines k ls with
    | .error e, _ => .error e
    | _, .error e => .error e
    | .ok ws, .ok rest => .ok (ws ++ rest)

/-- An assembled source file: its variant and its command words. -/
structure Program where
  variant : Variant
  words : List (CmdWord variant.k)
deriving DecidableEq, Repr

/-- Read every line, or the first error. -/
def parseLines : List (List Char) → Except AsmError (List Line)
  | [] => .ok []
  | l :: ls =>
    match parseLine (tokens [] l), parseLines ls with
    | .error e, _ => .error e
    | _, .error e => .error e
    | .ok x, .ok xs => .ok (x :: xs)

/-- The width is stated once, before any command (R38, log 16). -/
def assembleProgram : List Line → Except AsmError Program
  | [] => .error .widthNotOnce
  | .blank :: ls => assembleProgram ls
  | .instr _ :: _ => .error .widthNotOnce
  | .pseudo _ :: _ => .error .widthNotOnce
  | .width w :: ls =>
    match variantOfWidth w with
    | .error e => .error e
    | .ok v =>
      match assembleLines v.k ls with
      | .error e => .error e
      | .ok words => .ok { variant := v, words }

/-- A source file assembled (R38). -/
def assemble (text : List Char) : Except AsmError Program :=
  match parseLines (splitLines [] text) with
  | .error e => .error e
  | .ok ls => assembleProgram ls

/-- A hexadecimal digit, capital. -/
def hexDigit (d : Nat) : Char := if d < 10 then Char.ofNat ('0'.toNat + d) else Char.ofNat ('A'.toNat + (d - 10))

/-- The low `n` hexadecimal digits of a number, most significant first. -/
def hexDigits : Nat → Nat → List Char
  | 0, _ => []
  | n + 1, x => hexDigits n (x / 16) ++ [hexDigit (x % 16)]

/-- The text of a command (R38): UPD with its unit, the others without operand. -/
def printInstr (k : Nat) : Instr → List Char
  | .upd x => "UPD 0x".toList ++ hexDigits (k / 4) x
  | .val => "VAL".toList
  | .rst => "RST".toList
  | .chk => "CHK".toList

/-- The disassembler: whatever the data field of a VAL, RST or CHK word holds, no operand is printed (R38). -/
def disassemble {k : Nat} (cmd : CmdWord k) : List Char := printInstr k (decode cmd)

end Sys2Proof.Machine
end

