-- ==== Sys2Proof/Safety.lean ====
section
/-! DEFINITION. Safety.lean: the terms the claims use: the hidden accumulators within their bound, the architectural machine
behind a deferred one, residues, the closed-form sums, and runs. -/

namespace Sys2Proof

/-- A command that writes no register: VAL and CHK (R56, R61). -/
def Instr.isQuery : Instr → Bool
  | .upd _ => false
  | .val => true
  | .rst => false
  | .chk => true

end Sys2Proof

namespace Sys2Proof.Machine

/-- R74: after `cnt` units of a batch that started fully folded, `acc1 <= (cnt + 1) M` and
`acc2 <= M (cnt + 1)(cnt + 2) / 2`, and the batch is not over-full. -/
def Hidden.WithinBatch {k : Nat} (h : Hidden k) : Prop :=
  h.cnt ≤ h.batch.N ∧ h.acc1.toNat ≤ (h.cnt + 1) * modulus k ∧
    h.acc2.toNat ≤ modulus k * (h.cnt + 1) * (h.cnt + 2) / 2

/-- The accumulators are within their batch; the eager registers always are (R12). -/
def Accs.WithinBatch {k : Nat} : Accs k → Prop
  | .eager _ _ => True
  | .deferred h => h.WithinBatch

/-- The invariant of the machine: once the registers hold values, hidden accumulators are within their batch (R74). -/
def State.Inv (s : State) : Prop := s.hasValue = true → s.accs.WithinBatch

/-- R53: what a state reached from the empty state looks like: both registers 0, or neither. -/
def State.NormalForm (s : State) : Prop := s.hasValue = true → (s.sum1 = 0 ↔ s.sum2 = 0)

/-- The architectural machine a deferred implementation refines: the same, with the registers themselves (R18, R76). -/
abbrev State.architectural (s : State) : State := s.setAccs (.eager s.sum1 s.sum2)

/-- A map over the next state of an outcome. -/
def mapNext {σ τ : Type} (f : σ → τ) : Host.Outcome σ Fault Refusal → Host.Outcome τ Fault Refusal
  | .next s => .next (f s)
  | .fault r => .fault r
  | .refused r => .refused r

/-- The residues `r1`, `r2` (R14). -/
def State.residue1 (s : State) : Nat := (canon s.sum1).toNat

/-- The second residue (R14). -/
def State.residue2 (s : State) : Nat := (canon s.sum2).toNat

/-- The mathematical sum `S1` of R53. -/
def plainSum1 (units : List Nat) : Nat := units.sum

/-- The mathematical sum `S2` of R53: the first of `n` units counts `n` times, the last once. -/
def plainSum2 : List Nat → Nat
  | [] => 0
  | x :: xs => (xs.length + 1) * x + plainSum2 xs

/-- R53's reachability: some list of well-formed commands leads from one state to the other. -/
def Reaches (s t : State) : Prop :=
  ∃ is rs, (∀ i ∈ is, i.wellFormed s.variant.k = true) ∧ run is s = .next (t, rs)

/-- One batch in plain natural numbers, no fold (R72, R74): both sums after the units. -/
def plainBatch : Nat × Nat → List Nat → Nat × Nat
  | p, [] => p
  | (a, b), x :: xs => plainBatch (a + x, b + (a + x)) xs

/-- What the build fixed is the same (R5): the implementation, its `(A, N)`, and its remaining choices. -/
def Accs.SameBuild {k : Nat} : Accs k → Accs k → Prop
  | .eager _ _, .eager _ _ => True
  | .deferred h, .deferred g => h.batch = g.batch ∧ h.foldChoices = g.foldChoices
  | .eager _ _, .deferred _ => False
  | .deferred _, .eager _ _ => False

/-- The pair `(A, N)` of a deferred implementation (R5, R71). -/
def Accs.params {k : Nat} : Accs k → Option (Nat × Nat)
  | .eager _ _ => none
  | .deferred h => some (h.batch.A, h.batch.N)

/-- A port input that does nothing (R30). -/
def PortIn.isIdle {k : Nat} (p : PortIn k) : Bool := !p.rst && !p.cmdValid

/-- `update` called once for each chunk (R66). -/
def runChunks : List (List Nat) → State → Host.Outcome (State × List Response) Fault Refusal
  | [], s => .next (s, [])
  | c :: cs, s =>
    match run (expand (.upds c)) s with
    | .fault r => .fault r
    | .refused r => .refused r
    | .next (t, rs) => mapNext (fun p => (p.1, rs ++ p.2)) (runChunks cs t)

/-- The source's update line read literally, on residues (R52): `sum1 := (sum1 + x) mod M; sum2 := (sum2 + sum1) mod M`. -/
def residueUpdate (m : Nat) (r : Nat × Nat) (x : Nat) : Nat × Nat := ((r.1 + x) % m, (r.2 + (r.1 + x) % m) % m)

/-- The check value of a remainder, by R60's lines on numbers. -/
def residueCheck (m t : Nat) : Nat := if m - t % m = m then 0 else m - t % m

/-- The model R14 speaks of: the residues alone, with eager `mod M`; the responses of a command list. -/
def residueRun (m : Nat) (r : Nat × Nat) : List Instr → List Response
  | [] => []
  | .upd x :: is => residueRun m (residueUpdate m r x) is
  | .val :: is => ⟨r.2, r.1⟩ :: residueRun m r is
  | .rst :: is => residueRun m (0, 0) is
  | .chk :: is =>
    ⟨residueCheck m (r.1 + residueCheck m (r.1 + r.2)), residueCheck m (r.1 + r.2)⟩ :: residueRun m r is

/-- Two words are the same residue (R47). -/
def SameResidue {k : Nat} (a b : Word k) : Prop := canon a = canon b

end Sys2Proof.Machine
end

