-- ==== Sys2Proof/Certificates/Slice0/Obligations.lean ====
section
/-! DEFINITION. Certificates/Slice0/Obligations.lean: the statements for the provers. Each docstring names the rule of spec/ it
rests on. `M` is `modulus k`, `k` the unit width of the instance. A statement over all states covers all three variants, and
both implementations (eager and deferred) unless it names one. -/

open Sys2Proof Sys2Proof.Machine

/-! ### The step and the port -/

/-- R6, R26, R30: a step with a command on the port and no reset runs exactly the decoded command, on the state with that
input taken off (and, on a deferred implementation, its optional early fold made); a word put on the port is the one run. The
input list (log 3), the fold choice (log 7) and `withFetchWord` (log 10) are the model's. -/
def Obligations.StepRunsTheDecodedCommand : Prop :=
  (∀ (s : State) (p : PortIn s.variant.k) (rest : List (PortIn s.variant.k)),
    s.inputs = p :: rest → p.rst = false → p.cmdValid = true →
      step s = exec (decode p.cmd) (s.foldByChoice.setInputs rest)) ∧
  (∀ (s : State) (i : Instr) (nbits : Nat), i.wellFormed s.variant.k = true → s.variant.k + 2 ≤ nbits →
      step (s.withFetchWord nbits (encode s.variant.k i).toNat) = exec i (s.foldByChoice.setInputs s.inputs.tail)) ∧
  (∀ (s : State) (a b : Word s.variant.k), s.accs = .eager a b → s.foldByChoice = s)

/-- R84, R91: a step with `rst = 1` leaves the empty state and no response, whatever the state was and whatever is on the
command port (a VAL or CHK too); holding it for a second step changes nothing more. -/
def Obligations.HardwareResetWins : Prop :=
  (∀ (s : State) (p : PortIn s.variant.k) (rest : List (PortIn s.variant.k)), s.inputs = p :: rest → p.rst = true →
    (∀ a b, s.accs = .eager a b →
      step s = .next { s with hasValue := true, accs := .eager 0 0, inputs := rest, rsp := none }) ∧
    (∃ t, step s = .next t ∧ t.hasValue = true ∧ t.sum1 = 0 ∧ t.sum2 = 0 ∧ t.rspValid = false)) ∧
  (∀ (s : State) (p q : PortIn s.variant.k) (rest : List (PortIn s.variant.k)), p.rst = true → q.rst = true →
      step (s.setInputs (p :: rest)) = step (s.setInputs (q :: rest))) ∧
  (∀ (s : State) (p q : PortIn s.variant.k) (rest : List (PortIn s.variant.k)) (a b : Word s.variant.k),
      s.accs = .eager a b → p.rst = true → q.rst = true →
      runSteps 2 (s.setInputs (p :: q :: rest)) = runSteps 1 (s.setInputs (q :: rest)))

/-- R30, R89, R99: a step with `rst = 0` and `cmd_valid = 0`, and a step after the last presented input, changes neither
register, reads nothing of `cmd` and produces no response. The second is log 17's, the early fold log 7's. -/
def Obligations.IdleStepHoldsTheState : Prop :=
  ∀ s : State,
    (∀ p rest, s.inputs = p :: rest → p.rst = false → p.cmdValid = false →
      step s = .next { s with accs := s.accs.foldByChoice, inputs := rest, rsp := none }) ∧
    (s.inputs = [] → step s = .next { s with accs := s.accs.foldByChoice, rsp := none }) ∧
    s.accs.foldByChoice.sum1 = s.accs.sum1 ∧ s.accs.foldByChoice.sum2 = s.accs.sum2 ∧
    (∀ a b, s.accs = .eager a b → s.accs.foldByChoice = s.accs)

/-- R35, R36, R37: `rsp_valid = 1` in exactly the steps that execute VAL or CHK with `rst = 0`; VALUE puts its high half on
`rsp_hi` and its low half on `rsp_lo`; CHECK puts `C0` on `rsp_lo` and `C1` on `rsp_hi`. -/
def Obligations.ResponsesComeFromQueriesOnly : Prop :=
  (∀ s t : State, step s = .next t →
    (t.rspValid = true ↔
      ∃ p rest, s.inputs = p :: rest ∧ p.rst = false ∧ p.cmdValid = true ∧ (decode p.cmd).isQuery = true)) ∧
  (∀ (v : Variant) (w : BitVec (2 * v.k)),
    (Rsp.value w : Rsp v.k).hi.toNat = w.toNat / 2 ^ v.k ∧ (Rsp.value w : Rsp v.k).lo.toNat = w.toNat % 2 ^ v.k) ∧
  (∀ (v : Variant) (c0 c1 : Word v.k), (Rsp.check c0 c1).lo = c0 ∧ (Rsp.check c0 c1).hi = c1)

/-- R26: presenting a command list on the port, one command a step, gives the left fold of the commands: the same final
state and the same responses in order; the host's own run of the machine ends in the same state. The list is log 3's. -/
def Obligations.PortRunIsTheLeftFold : Prop :=
  (∀ (s : State) (is : List Instr) (a b : Word s.variant.k), s.accs = .eager a b → s.inputs = [] →
    (∀ i ∈ is, i.wellFormed s.variant.k = true) → runSteps is.length (s.present is) = run is s) ∧
  (∀ (n : Nat) (s : State), core.run n s = mapNext Prod.fst (runSteps n s))

/-- R66, R30: idle steps anywhere in what the host presents change neither the result nor the responses. -/
def Obligations.IdleStepsMayBeInserted : Prop :=
  ∀ (s : State) (l : List (PortIn s.variant.k)) (a b : Word s.variant.k), s.accs = .eager a b →
    mapNext (fun p => (p.1.silent, p.2)) (runSteps l.length (s.setInputs l)) =
      mapNext (fun p => (p.1.silent, p.2))
        (runSteps (l.filter fun p => !p.isIdle).length (s.setInputs (l.filter fun p => !p.isIdle)))

/-! ### Reset, power-up, totality -/

/-- R17, R90: right after reset, for every variant and every build, both registers are 0 (so are the hidden accumulators and
their count), VAL responds 0 and CHK responds `CHECK(0, 0)`. -/
def Obligations.ResetStateIsEmpty : Prop :=
  ∀ (v : Variant) (b : Build v.k),
    (State.resetOf v b).sum1 = 0 ∧ (State.resetOf v b).sum2 = 0 ∧ (State.resetOf v b).hasValue = true ∧
    (b = .eager → (State.resetOf v b).accs = .eager 0 0) ∧
    (∀ batch choices, b = .deferred batch choices → (State.resetOf v b).accs = .deferred ⟨batch, 0, 0, 0, choices⟩) ∧
    (∃ t, run [.val] (State.resetOf v b) = .next (t, [⟨0, 0⟩])) ∧
    (∃ t, run [.chk] (State.resetOf v b) = .next (t, [⟨0, 0⟩]))

/-- R92: before the first reset UPD leaves the registers without value, VAL and CHK have no defined response (the model
refuses them by name), and RST and hardware reset establish the empty state. -/
def Obligations.NoValueBeforeTheFirstReset : Prop :=
  ∀ s : State, s.hasValue = false →
    (∀ x, exec (.upd x) s = .next { s with rsp := none }) ∧
    exec .val s = .refused .beforeFirstReset ∧ exec .chk s = .refused .beforeFirstReset ∧
    (∃ t, exec .rst s = .next t ∧ t.hasValue = true ∧ t.sum1 = 0 ∧ t.sum2 = 0) ∧
    (∀ p rest, s.inputs = p :: rest → p.rst = true →
      ∃ t, step s = .next t ∧ t.hasValue = true ∧ t.sum1 = 0 ∧ t.sum2 = 0)

/-- R93: after power-up one RST is all the host must do: any commands may follow, forever, and what the registers held
before matters to nothing. -/
def Obligations.OneResetIsEnough : Prop :=
  (∀ (v : Variant) (accs : Accs v.k) (is : List Instr),
    ∃ t rs, run (.rst :: is) (State.powerUp v accs) = .next (t, rs) ∧ t.hasValue = true) ∧
  (∀ (v : Variant) (a b c d : Word v.k) (is : List Instr),
    run (.rst :: is) (State.powerUp v (.eager a b)) = run (.rst :: is) (State.powerUp v (.eager c d)))

/-- R7, R80: every command completes from every state whose registers hold values, for every operand, and every command is
accepted again after it; a step never stops there, and no step ever faults. -/
def Obligations.EveryCommandCompletes : Prop :=
  (∀ (i : Instr) (s : State), s.hasValue = true → ∃ t, exec i s = .next t ∧ t.hasValue = true) ∧
  (∀ s : State, s.hasValue = true → ∃ t, step s = .next t ∧ t.hasValue = true) ∧
  (∀ (is : List Instr) (s : State), s.hasValue = true → ∃ t rs, run is s = .next (t, rs) ∧ t.hasValue = true) ∧
  (∀ (s : State) (f : Fault), step s ≠ .fault f)

/-- R5, D22: no step changes the width of the instance or the `(A, N)` of its implementation, and a step takes exactly one
input off the port (the list of log 3). -/
def Obligations.BuildNeverChanges : Prop :=
  ∀ s t : State, step s = .next t →
    t.variant = s.variant ∧ t.accs.params = s.accs.params ∧ t.inputs.length = s.inputs.length - 1

/-- R16, R56, R58, R61: what each command may change. UPD: the accumulators and the response port. VAL, CHK: the response port
alone. RST: the accumulators (which then hold values) and the response port. -/
def Obligations.CommandsChangeOnlyTheirOwn : Prop :=
  ∀ s t : State,
    (∀ x, exec (.upd x) s = .next t → ∃ a, t = { s with accs := a, rsp := none } ∧ Accs.SameBuild s.accs a) ∧
    (exec .val s = .next t → ∃ r, t = { s with rsp := some r }) ∧
    (exec .rst s = .next t →
      ∃ a, t = { s with hasValue := true, accs := a, rsp := none } ∧ Accs.SameBuild s.accs a) ∧
    (exec .chk s = .next t → ∃ r, t = { s with rsp := some r })

/-! ### UPD -/

/-- R50, R51: UPD on the registers: `sum1` takes `ocadd(sum1, x)`, `sum2` takes `ocadd(sum2, sum1')` with the NEW `sum1`; no
response, nothing else changes; its word is `(x << 2) | 0`. -/
def Obligations.UpdAddsIntoBothRegisters : Prop :=
  (∀ (s : State) (a b x : Word s.variant.k), s.hasValue = true → s.accs = .eager a b →
    exec (.upd x.toNat) s = .next { s with accs := .eager (ocadd a x) (ocadd b (ocadd a x)), rsp := none }) ∧
  (∀ (v : Variant) (x : Word v.k),
    (encode v.k (.upd x.toNat)).toNat = x.toNat <<< 2 ∧ decode (encode v.k (.upd x.toNat)) = .upd x.toNat)

/-- R52: what UPD does to the residues, on every implementation. -/
def Obligations.UpdActsModuloM : Prop :=
  ∀ (s : State) (x : Word s.variant.k), s.Inv → s.hasValue = true →
    ∃ t, exec (.upd x.toNat) s = .next t ∧
      t.residue1 = (s.residue1 + x.toNat) % modulus s.variant.k ∧
      t.residue2 = (s.residue2 + t.residue1) % modulus s.variant.k

/-- R54: the corner cases of UPD, row by row; `p`, `q` are the registers after it, `a`, `b` those before it. -/
def Obligations.UpdCornerCases : Prop :=
  (∀ (s : State) (a b x : Word s.variant.k), s.hasValue = true → s.accs = .eager a b →
    ∃ p q, exec (.upd x.toNat) s = .next { s with accs := .eager p q, rsp := none } ∧
      (x = 0 → p = a ∧ q = ocadd b a ∧ ((p = a ∧ q = b) ↔ (a = 0 ∨ (a = BitVec.allOnes _ ∧ b ≠ 0)))) ∧
      (x = BitVec.allOnes _ → canon p = canon a ∧ canon q = canon (ocadd b a) ∧
        (canon q).toNat = ((canon b).toNat + (canon a).toNat) % modulus s.variant.k ∧
        p = (if a = 0 then BitVec.allOnes _ else a)) ∧
      (a.toNat + x.toNat = modulus s.variant.k → p = BitVec.allOnes _) ∧
      (a.toNat + x.toNat = modulus s.variant.k + 1 → p = 1) ∧
      (a = BitVec.allOnes _ → x = BitVec.allOnes _ → p = BitVec.allOnes _) ∧
      ((p = 0 ∧ q = 0) ↔ (a = 0 ∧ x = 0 ∧ b = 0)) ∧
      (a = 0 → x = 0 → p = 0 ∧ q = b) ∧
      (b.toNat + p.toNat = modulus s.variant.k → q = BitVec.allOnes _) ∧
      (b.toNat + p.toNat = modulus s.variant.k + 1 → q = 1) ∧
      (a = BitVec.allOnes _ → b = BitVec.allOnes _ → x = BitVec.allOnes _ →
        p = BitVec.allOnes _ ∧ q = BitVec.allOnes _)) ∧
  (∀ s : State, run (expand (.upds [])) s = .next (s, []))

/-- R53, R13: after a reset and any units, on every implementation, the registers are `F_k` of the mathematical sums and the
residues are those sums modulo `M`; a register is 0 only if every unit was 0. -/
def Obligations.RegistersFoldTheStreamSums : Prop :=
  ∀ (s : State) (xs : List (Word s.variant.k)),
    ∃ t, run (.rst :: updAll (xs.map BitVec.toNat)) s = .next (t, []) ∧
      t.sum1.toNat = fold s.variant.k (plainSum1 (xs.map BitVec.toNat)) ∧
      t.sum2.toNat = fold s.variant.k (plainSum2 (xs.map BitVec.toNat)) ∧
      t.residue1 = plainSum1 (xs.map BitVec.toNat) % modulus s.variant.k ∧
      t.residue2 = plainSum2 (xs.map BitVec.toNat) % modulus s.variant.k ∧
      (t.sum1.toNat = 0 ↔ ∀ x ∈ xs, x = 0) ∧ (t.sum2.toNat = 0 ↔ ∀ x ∈ xs, x = 0)

/-- R53, last part: the closed form from an arbitrary start pair `(a, b)`: `fold(a + S1)` and `fold(b + n a + S2)`. -/
def Obligations.StreamClosedFormFromAnyPair : Prop :=
  ∀ (s : State) (xs : List (Word s.variant.k)), s.Inv → s.hasValue = true →
    ∃ t rs, run (updAll (xs.map BitVec.toNat)) s = .next (t, rs) ∧ rs = [] ∧
      t.sum1.toNat = fold s.variant.k (s.sum1.toNat + plainSum1 (xs.map BitVec.toNat)) ∧
      t.sum2.toNat =
        fold s.variant.k (s.sum2.toNat + xs.length * s.sum1.toNat + plainSum2 (xs.map BitVec.toNat))

/-- R53: the register pairs reachable from the empty state are `(0, 0)` and every pair in `[1, M] x [1, M]`, the latter by two
UPD. -/
def Obligations.ReachableRegisterPairs : Prop :=
  ∀ (v : Variant) (a b : Word v.k),
    ((∃ t, Reaches (State.resetOf v .eager) t ∧ t.sum1.toNat = a.toNat ∧ t.sum2.toNat = b.toNat) ↔
      ((a = 0 ∧ b = 0) ∨ (a ≠ 0 ∧ b ≠ 0))) ∧
    (a ≠ 0 → b ≠ 0 → ∃ x y : Word v.k,
      run [.upd x.toNat, .upd y.toNat] (State.resetOf v .eager) =
        .next ({ State.resetOf v .eager with accs := .eager a b }, []))

/-- R13, R43 law 5, R53: every step keeps "both registers are 0 or neither is", on every implementation. -/
def Obligations.NormalFormIsKept : Prop :=
  ∀ s t : State, s.Inv → s.NormalForm → step s = .next t → t.NormalForm

/-- R66: the effect of a stream depends only on the concatenation of its units, empty chunks and single units included. -/
def Obligations.ChunksDoNotMatter : Prop :=
  (∀ (chunks : List (List Nat)) (s : State), runChunks chunks s = run (expand (.upds chunks.flatten)) s) ∧
  (∀ s : State, run (expand (.upds [])) s = .next (s, []))

/-- R66, R56, R61: VAL and CHK between other commands do not change the result. -/
def Obligations.QueriesDoNotDisturbTheStream : Prop :=
  ∀ (s : State) (is : List Instr), s.hasValue = true →
    ∃ t u rs, run is s = .next (t, rs) ∧ run (is.filter fun i => !i.isQuery) s = .next (u, []) ∧ t.silent = u.silent

/-- R9, R54: units equal modulo `M` (a 0 and an all-ones unit) are indistinguishable to the checksum and to the check
values. -/
def Obligations.ZeroAndAllOnesUnitsLookAlike : Prop :=
  ∀ (s : State) (us ws : List Nat),
    List.Forall₂ (fun u w => u ≤ modulus s.variant.k ∧ w ≤ modulus s.variant.k ∧
      u % modulus s.variant.k = w % modulus s.variant.k) us ws →
    (∃ t u rs, run (expand (.calc us)) s = .next (t, rs) ∧ run (expand (.calc ws)) s = .next (u, rs)) ∧
    (∃ t u rs, run (expand (.checkValues us)) s = .next (t, rs) ∧ run (expand (.checkValues ws)) s = .next (u, rs))

/-! ### VAL, RST, CHK -/

/-- R55, R36: VAL responds `(canon(sum2) << k) | canon(sum1)`, a `W`-bit number; nothing else changes; its data field is
ignored. -/
def Obligations.ValReportsTheChecksum : Prop :=
  (∀ s : State, s.hasValue = true →
    ∃ w : BitVec (2 * s.variant.k), exec .val s = .next { s with rsp := some (.value w) } ∧
      w.toNat = ((canon s.sum2).toNat <<< s.variant.k) ||| (canon s.sum1).toNat ∧
      (Rsp.value w : Rsp s.variant.k).hi = canon s.sum2 ∧ (Rsp.value w : Rsp s.variant.k).lo = canon s.sum1) ∧
  (∀ (v : Variant) (data : Word v.k), decode (commandWord data 0b01#2) = .val) ∧
  (∀ v : Variant, (encode v.k .val).toNat = 1)

/-- R56, R61: VAL and CHK have no side effect, bit for bit, and repeated, or interleaved with each other, they answer the same
(only the response port differs between the repetitions, and they do not read it); a deferred implementation that
folds on the way leaves both registers as they were. -/
def Obligations.QueriesHaveNoSideEffect : Prop :=
  ∀ (s : State) (i : Instr), i.isQuery = true → s.hasValue = true →
    (∃ r, ∀ o : Option (Rsp s.variant.k), exec i { s with rsp := o } = .next { s with rsp := some r }) ∧
    s.foldByChoice.sum1 = s.sum1 ∧ s.foldByChoice.sum2 = s.sum2 ∧
    (∃ t u, exec i s = .next t ∧ exec i s.foldByChoice = .next u ∧ t.response = u.response)

/-- R57: each half of a checksum is in `[0, M-1]`, the halves are the residues, the checksum is 0 exactly when both registers
are 0 or `M`, and after a reset and units it is `((S2 mod M) << k) | (S1 mod M)`. -/
def Obligations.ChecksumRange : Prop :=
  (∀ s : State, s.hasValue = true →
    ∃ t r, exec .val s = .next t ∧ t.response = some r ∧
      r.hi < modulus s.variant.k ∧ r.lo < modulus s.variant.k ∧ r.hi = s.residue2 ∧ r.lo = s.residue1 ∧
      ((r.hi = 0 ∧ r.lo = 0) ↔
        ((s.sum1 = 0 ∨ s.sum1 = BitVec.allOnes _) ∧ (s.sum2 = 0 ∨ s.sum2 = BitVec.allOnes _)))) ∧
  (∀ (s : State) (us : List Nat), (∀ u ∈ us, u ≤ modulus s.variant.k) →
    ∃ t, run (.rst :: (updAll us ++ [.val])) s =
      .next (t, [⟨plainSum2 us % modulus s.variant.k, plainSum1 us % modulus s.variant.k⟩]))

/-- R58: RST writes the pattern 0 to both registers (and clears hidden accumulators and their count), from every state, one
never reset included; no response, nothing else changes; its data field is ignored. -/
def Obligations.RstEmptiesTheRegisters : Prop :=
  (∀ (s : State) (a b : Word s.variant.k), s.accs = .eager a b →
    exec .rst s = .next { s with hasValue := true, accs := .eager 0 0, rsp := none }) ∧
  (∀ (s : State) (h : Hidden s.variant.k), s.accs = .deferred h →
    exec .rst s =
      .next { s with hasValue := true, accs := .deferred { h with acc1 := 0, acc2 := 0, cnt := 0 }, rsp := none }) ∧
  (∀ (v : Variant) (data : Word v.k), decode (commandWord data 0b10#2) = .rst) ∧
  (∀ v : Variant, (encode v.k .rst).toNat = 2)

/-- R59: after RST the state is the empty state whatever preceded it; `RST; RST` is `RST`; VAL then responds 0 and CHK
`CHECK(0, 0)`; hardware reset does the same. -/
def Obligations.RstForgetsHistory : Prop :=
  (∀ s : State, ∃ t, run [.rst] s = .next (t, []) ∧ t.sum1 = 0 ∧ t.sum2 = 0 ∧ run [.rst, .rst] s = .next (t, [])) ∧
  (∀ s : State, (∃ t, run [.rst, .val] s = .next (t, [⟨0, 0⟩])) ∧ (∃ t, run [.rst, .chk] s = .next (t, [⟨0, 0⟩]))) ∧
  (∀ (s : State) (a b c d : Word s.variant.k), exec .rst { s with accs := .eager a b } = exec .rst { s with accs := .eager c d }) ∧
  (∀ (s : State) (p q : PortIn s.variant.k) (rest : List (PortIn s.variant.k)),
    p.rst = true → q.rst = false → q.cmdValid = true → decode q.cmd = .rst →
      step (s.setInputs (p :: rest)) = step (s.setInputs (q :: rest)))

/-- R60: CHK responds `CHECK(C0, C1)` by the source's algorithm on the residues; nothing else changes; its data field is
ignored. -/
def Obligations.ChkSolvesForTheCheckValues : Prop :=
  (∀ s : State, s.hasValue = true →
    ∃ c0 c1 : Word s.variant.k, exec .chk s = .next { s with rsp := some (.check c0 c1) } ∧
      (Rsp.check c0 c1).lo = c0 ∧ (Rsp.check c0 c1).hi = c1 ∧
      c0.toNat = (if modulus s.variant.k - (s.residue1 + s.residue2) % modulus s.variant.k = modulus s.variant.k then 0
        else modulus s.variant.k - (s.residue1 + s.residue2) % modulus s.variant.k) ∧
      c1.toNat = (if modulus s.variant.k - (s.residue1 + c0.toNat) % modulus s.variant.k = modulus s.variant.k then 0
        else modulus s.variant.k - (s.residue1 + c0.toNat) % modulus s.variant.k)) ∧
  (∀ (v : Variant) (data : Word v.k), decode (commandWord data 0b11#2) = .chk) ∧
  (∀ v : Variant, (encode v.k .chk).toNat = 3)

/-- R62: from any state, appending the two check values in order drives the checksum to zero; the registers end all ones,
or at `(0, 0)` if every unit was 0. -/
def Obligations.CheckValuesZeroTheChecksum : Prop :=
  ∀ s : State, s.Inv → s.hasValue = true →
    ∃ t c0 c1 u, exec .chk s = .next t ∧ t.response = some ⟨c1, c0⟩ ∧
      run [.upd c0, .upd c1, .val] t = .next (u, [⟨0, 0⟩]) ∧
      (s.NormalForm → s.sum1 = 0 → u.sum1 = 0 ∧ u.sum2 = 0) ∧
      (s.NormalForm → s.sum1 ≠ 0 → u.sum1 = BitVec.allOnes _ ∧ u.sum2 = BitVec.allOnes _)

/-- R63: CHK on the raw registers: two end-around-carry additions, two complements, two all-ones detectors. -/
def Obligations.ChkOnTheRawRegisters : Prop :=
  ∀ s : State, s.hasValue = true →
    exec .chk s = .next { s with rsp := some (.check (canon (ocneg (ocadd s.sum1 s.sum2)))
      (canon (ocneg (ocadd s.sum1 (canon (ocneg (ocadd s.sum1 s.sum2))))))) }

/-- R64: the laws of the check values: range, congruences, `C1` is the checksum's high half, zero exactly when the checksum
is, uniqueness in `[0, M-1]`, and congruent units do as well. -/
def Obligations.CheckValueLaws : Prop :=
  ∀ s : State, s.Inv → s.hasValue = true →
    ∃ t c0 c1, exec .chk s = .next t ∧ t.response = some ⟨c1, c0⟩ ∧
      c0 < modulus s.variant.k ∧ c1 < modulus s.variant.k ∧
      (c0 : Int) = (-(s.residue1 + s.residue2 : Int)) % modulus s.variant.k ∧
      (c1 : Int) = (-(s.residue1 + c0 : Int)) % modulus s.variant.k ∧
      c1 = s.residue2 ∧
      ((c0 = 0 ∧ c1 = 0) ↔ (s.residue1 = 0 ∧ s.residue2 = 0)) ∧
      (∀ d0 d1, d0 ≤ modulus s.variant.k → d1 ≤ modulus s.variant.k →
        ((∃ u, run [.upd d0, .upd d1, .val] s = .next (u, [⟨0, 0⟩])) ↔
          (d0 % modulus s.variant.k = c0 ∧ d1 % modulus s.variant.k = c1)))

/-- R65: in the empty state CHK responds `CHECK(0, 0)`, appending them keeps `(0, 0)` and VAL responds 0; every state whose
residues are both 0 gives the same response. -/
def Obligations.CheckValuesOfTheEmptyState : Prop :=
  (∀ (v : Variant) (b : Build v.k),
    ∃ t, run [.chk, .upd 0, .upd 0, .val] (State.resetOf v b) = .next (t, [⟨0, 0⟩, ⟨0, 0⟩]) ∧ t.sum1 = 0 ∧ t.sum2 = 0) ∧
  (∀ s : State, s.hasValue = true → s.residue1 = 0 → s.residue2 = 0 → ∃ t, run [.chk] s = .next (t, [⟨0, 0⟩]))

/-! ### One-shot sequences -/

/-- R67: CALC responds `((S2 mod M) << k) | (S1 mod M)`, whatever the instance held before. -/
def Obligations.CalcIsTheOneShotChecksum : Prop :=
  ∀ (s : State) (us : List Nat), Pseudo.wellFormed s.variant.k (.calc us) = true →
    expand (.calc us) = .rst :: (expand (.upds us) ++ [.val]) ∧
    (∃ t, run (expand (.calc us)) s =
      .next (t, [⟨plainSum2 us % modulus s.variant.k, plainSum1 us % modulus s.variant.k⟩])) ∧
    (us = [] → ∃ t, run (expand (.calc us)) s = .next (t, [⟨0, 0⟩]))

/-- R68: CHECKVALUES responds the check values of the stream and leaves the state holding it, so that appending them drives
the checksum to 0. -/
def Obligations.CheckValuesIsTheOneShotSolver : Prop :=
  ∀ (s : State) (us : List Nat), Pseudo.wellFormed s.variant.k (.checkValues us) = true →
    ∃ t c0 c1 u, expand (.checkValues us) = .rst :: (expand (.upds us) ++ [.chk]) ∧
      run (expand (.checkValues us)) s = .next (t, [⟨c1, c0⟩]) ∧
      c0 = residueCheck (modulus s.variant.k)
        (plainSum1 us % modulus s.variant.k + plainSum2 us % modulus s.variant.k) ∧
      c1 = residueCheck (modulus s.variant.k) (plainSum1 us % modulus s.variant.k + c0) ∧
      t.residue1 = plainSum1 us % modulus s.variant.k ∧ t.residue2 = plainSum2 us % modulus s.variant.k ∧
      run [.upd c0, .upd c1, .val] t = .next (u, [⟨0, 0⟩])

/-- 45_oneshot_sequences.md, Verification sequence: a receiver that recomputes the checksum over a stream and its two check
values gets 0, on any instance, whatever it held. -/
def Obligations.ReceiverVerifiesTheStream : Prop :=
  ∀ (sender receiver : State) (us : List Nat), receiver.variant = sender.variant →
    Pseudo.wellFormed sender.variant.k (.checkValues us) = true →
    ∃ t u c0 c1, run (expand (.checkValues us)) sender = .next (t, [⟨c1, c0⟩]) ∧
      run (expand (.calc (us ++ [c0, c1]))) receiver = .next (u, [⟨0, 0⟩])

/-- R69: NEW, by RST or by hardware reset, establishes `(0, 0)`; VAL then responds 0 and CHK `CHECK(0, 0)`. -/
def Obligations.NewEstablishesTheZeroState : Prop :=
  (∀ s : State, ∃ t u w, run (expand .new) s = .next (t, []) ∧ t.sum1 = 0 ∧ t.sum2 = 0 ∧
    run [.val] t = .next (u, [⟨0, 0⟩]) ∧ run [.chk] t = .next (w, [⟨0, 0⟩])) ∧
  (∀ (s : State) (p : PortIn s.variant.k) (rest : List (PortIn s.variant.k)), s.inputs = p :: rest → p.rst = true →
    ∃ t u w, step s = .next t ∧ t.sum1 = 0 ∧ t.sum2 = 0 ∧
      run [.val] t = .next (u, [⟨0, 0⟩]) ∧ run [.chk] t = .next (w, [⟨0, 0⟩]))

/-! ### The adder -/

/-- R40: the loop of passes ends (a pass makes a value above `M` smaller), gives the closed form, and takes at most two passes
below `2^(2k)`. -/
def Obligations.FoldLoopIsTheClosedForm : Prop :=
  ∀ (v : Variant) (n : Nat),
    foldLoop v.k n n = fold v.k n ∧ (modulus v.k < n → foldPass v.k n < n) ∧
    (n < 2 ^ (2 * v.k) → foldLoop v.k 2 n = fold v.k n)

/-- R41: the six laws of fold. -/
def Obligations.FoldLaws : Prop :=
  ∀ v : Variant,
    (∀ n, fold v.k n ≡ n [MOD modulus v.k]) ∧
    (∀ n, fold v.k n ≤ modulus v.k) ∧
    (∀ n, fold v.k n = 0 ↔ n = 0) ∧
    (∀ n, fold v.k n = if n = 0 then 0 else (n - 1) % modulus v.k + 1) ∧
    (∀ n, n ≤ modulus v.k → fold v.k n = n) ∧
    (∀ u x, fold v.k (fold v.k u + x) = fold v.k (u + x))

/-- R42: the adder is the `(k+1)`-bit sum with its carry out added back in, without a further carry, and that is the fold of
the sum. -/
def Obligations.AdderIsTheFoldOfTheSum : Prop :=
  ∀ (v : Variant) (a b : Word v.k),
    (ocadd a b).toNat = (a.toNat + b.toNat) % 2 ^ v.k + (a.toNat + b.toNat) / 2 ^ v.k ∧
    (ocadd a b).toNat = fold v.k (a.toNat + b.toNat)

/-- R43: the eight laws of the adder. -/
def Obligations.AdderLaws : Prop :=
  ∀ (v : Variant) (a b c : Word v.k),
    ocadd a b = ocadd b a ∧
    (ocadd (ocadd a b) c = ocadd a (ocadd b c) ∧ (ocadd (ocadd a b) c).toNat = fold v.k (a.toNat + b.toNat + c.toNat)) ∧
    ocadd a 0 = a ∧
    (ocadd 0 (BitVec.allOnes v.k) = BitVec.allOnes v.k ∧ (a ≠ 0 → ocadd a (BitVec.allOnes v.k) = a)) ∧
    (ocadd a b = 0 ↔ a = 0 ∧ b = 0) ∧
    (ocadd a b).toNat ≡ a.toNat + b.toNat [MOD modulus v.k] ∧
    ((a.toNat + b.toNat ≤ modulus v.k → (ocadd a b).toNat = a.toNat + b.toNat) ∧
      (modulus v.k < a.toNat + b.toNat → (ocadd a b).toNat = a.toNat + b.toNat - modulus v.k)) ∧
    ocadd a (BitVec.ofNat v.k (modulus v.k - a.toNat)) = BitVec.allOnes v.k

/-- R45: the canonical adder, and its relation to the end-around-carry adder. -/
def Obligations.ResidueOfASum : Prop :=
  ∀ (v : Variant) (a b : Word v.k),
    (a.toNat < modulus v.k → b.toNat < modulus v.k → (modadd a b).toNat = (a.toNat + b.toNat) % modulus v.k) ∧
    (canon (ocadd a b)).toNat = (a.toNat + b.toNat) % modulus v.k ∧
    canon (ocadd a b) = modadd (canon a) (canon b)

/-- R44, R46: `canon` is the remainder by `M`, taking only all ones to 0; `ocneg` is `M - v`; a check value of a remainder `t` is
`canon(ocneg(t))`. -/
def Obligations.CanonAndNegation : Prop :=
  ∀ (v : Variant) (a : Word v.k),
    (canon a).toNat = a.toNat % modulus v.k ∧ (canon a).toNat < modulus v.k ∧
    (a = BitVec.allOnes v.k → canon a = 0) ∧ (a ≠ BitVec.allOnes v.k → canon a = a) ∧
    (ocneg a).toNat = modulus v.k - a.toNat ∧ ocadd a (ocneg a) = BitVec.allOnes v.k ∧
    ocneg (0 : Word v.k) = BitVec.allOnes v.k ∧ ocneg (BitVec.allOnes v.k) = 0 ∧
    (a.toNat < modulus v.k → checkValue a = canon (ocneg a) ∧
      (canon (ocneg a)).toNat = if a = 0 then 0 else modulus v.k - a.toNat)

/-- R47: two values have one residue exactly when they are equal or are the patterns 0 and `M`; and arithmetic does not see
which of the two patterns of residue 0 a value holds. -/
def Obligations.RepresentationIndependence : Prop :=
  (∀ (v : Variant) (a a' : Word v.k), SameResidue a a' ↔
    (a = a' ∨ (a = 0 ∧ a' = BitVec.allOnes v.k) ∨ (a = BitVec.allOnes v.k ∧ a' = 0))) ∧
  (∀ (v : Variant) (a a' b b' : Word v.k), SameResidue a a' → SameResidue b b' →
    SameResidue (ocadd a b) (ocadd a' b')) ∧
  (∀ (v : Variant) (a a' : Word v.k), SameResidue a a' → SameResidue (ocneg a) (ocneg a') ∧ canon a = canon a') ∧
  (∀ (v : Variant) (a : Word v.k), SameResidue (canon a) a)

/-- R14: two states of one variant with equal residues are indistinguishable by any command list, and the responses are those
of the model that stores the residues alone with eager `mod M`. -/
def Obligations.OnlyResiduesAreObservable : Prop :=
  (∀ (s s' : State) (is : List Instr), s.variant = s'.variant → s.hasValue = true → s'.hasValue = true → s.Inv → s'.Inv →
    s.residue1 = s'.residue1 → s.residue2 = s'.residue2 →
    ∃ t t' rs, run is s = .next (t, rs) ∧ run is s' = .next (t', rs) ∧
      t.residue1 = t'.residue1 ∧ t.residue2 = t'.residue2) ∧
  (∀ (s : State) (is : List Instr), s.hasValue = true → s.Inv → (∀ i ∈ is, i.wellFormed s.variant.k = true) →
    ∃ t, run is s = .next (t, residueRun (modulus s.variant.k) (s.residue1, s.residue2) is))

/-! ### Deferred reduction -/

/-- R72: UPD, RST and hardware reset on the deferred machine, and the optional early fold: both accumulators together, the
count cleared. That the choice is read from a list, one entry a step, is the model's (log 7). -/
def Obligations.DeferredMachineSteps : Prop :=
  (∀ (s : State) (h : Hidden s.variant.k) (x : Word s.variant.k), s.hasValue = true → s.accs = .deferred h →
    (h.cnt ≠ h.batch.N → exec (.upd x.toNat) s = .next { s with
      accs := .deferred { h with
        acc1 := h.acc1 + x.setWidth h.batch.A
        acc2 := h.acc2 + (h.acc1 + x.setWidth h.batch.A)
        cnt := h.cnt + 1 }
      rsp := none }) ∧
    (h.cnt = h.batch.N → exec (.upd x.toNat) s = .next { s with
      accs := .deferred { h with
        acc1 := BitVec.ofNat h.batch.A (fold s.variant.k h.acc1.toNat) + x.setWidth h.batch.A
        acc2 := BitVec.ofNat h.batch.A (fold s.variant.k h.acc2.toNat) +
          (BitVec.ofNat h.batch.A (fold s.variant.k h.acc1.toNat) + x.setWidth h.batch.A)
        cnt := 1 }
      rsp := none })) ∧
  (∀ (s : State) (h : Hidden s.variant.k), s.accs = .deferred h →
    exec .rst s =
      .next { s with hasValue := true, accs := .deferred { h with acc1 := 0, acc2 := 0, cnt := 0 }, rsp := none } ∧
    ∀ p rest, s.inputs = p :: rest → p.rst = true →
      step s = .next { s with
        hasValue := true
        accs := .deferred { h with acc1 := 0, acc2 := 0, cnt := 0, foldChoices := h.foldChoices.tail }
        inputs := rest
        rsp := none }) ∧
  (∀ (v : Variant) (h : Hidden v.k) (rest : List Bool),
    (h.foldChoices = true :: rest → h.foldByChoice = { h with
      acc1 := BitVec.ofNat h.batch.A (fold v.k h.acc1.toNat)
      acc2 := BitVec.ofNat h.batch.A (fold v.k h.acc2.toNat)
      cnt := 0
      foldChoices := rest }) ∧
    (h.foldChoices = false :: rest → h.foldByChoice = { h with foldChoices := rest }) ∧
    (h.foldChoices = [] → h.foldByChoice = h))

/-- R73: VAL and CHK on the deferred machine work on the folded accumulators, and answer the same whether or not the fold is
written back. -/
def Obligations.DeferredQueriesFoldFirst : Prop :=
  ∀ (s : State) (h : Hidden s.variant.k), s.hasValue = true → s.accs = .deferred h →
    ∃ f1 f2 : Word s.variant.k,
      f1.toNat = fold s.variant.k h.acc1.toNat ∧ f2.toNat = fold s.variant.k h.acc2.toNat ∧
      exec .val s = .next { s with rsp := some (.value (valueWord (canon f1) (canon f2))) } ∧
      exec .chk s = .next { s with rsp := some (.check (check0 (canon f1) (canon f2))
        (check1 (canon f1) (check0 (canon f1) (canon f2)))) } ∧
      exec .val { s with accs := .deferred h.foldBoth } = .next { s with
        accs := .deferred h.foldBoth, rsp := some (.value (valueWord (canon f1) (canon f2))) } ∧
      exec .chk { s with accs := .deferred h.foldBoth } = .next { s with
        accs := .deferred h.foldBoth
        rsp := some (.check (check0 (canon f1) (canon f2)) (check1 (canon f1) (check0 (canon f1) (canon f2)))) }

/-- R90, R74: the batch bound holds of the reset state of every variant and build. -/
def Obligations.BatchBoundHoldsAtReset : Prop := ∀ (v : Variant) (b : Build v.k), (State.resetOf v b).Inv

/-- R74, R77: every step keeps the batch bound, from every state that meets it: the hidden accumulators never leave it. -/
def Obligations.BatchBoundIsKept : Prop := ∀ s t : State, s.Inv → step s = .next t → t.Inv

/-- R77, R82, R74: within the batch bound the `A`-bit additions of a UPD never wrap. -/
def Obligations.WideAccumulatorsNeverOverflow : Prop :=
  ∀ (v : Variant) (h : Hidden v.k) (x : Word v.k), h.WithinBatch →
    h.foldWhenFull.acc2.toNat + (h.foldWhenFull.acc1.toNat + x.toNat) < 2 ^ h.batch.A ∧
    (h.absorb x).acc1.toNat = h.foldWhenFull.acc1.toNat + x.toNat ∧
    (h.absorb x).acc2.toNat = h.foldWhenFull.acc2.toNat + (h.foldWhenFull.acc1.toNat + x.toNat) ∧
    (h.absorb x).cnt ≤ h.batch.N

/-- R76, R18, R70: every step of a deferred implementation is the step of the architectural machine behind it: the folds are
the registers, and the outcome and the response are the same. -/
def Obligations.DeferredStepRefinesTheArchitecture : Prop :=
  ∀ s : State, s.Inv → step s.architectural = mapNext State.architectural (step s)

/-- R76: from reset, whatever the host presents (commands, idle steps, resets), whatever early folds the implementation
takes, after every step the folds equal the registers and the responses are identical. -/
def Obligations.DeferredRunRefinesTheArchitecture : Prop :=
  ∀ (v : Variant) (batch : Batch v.k) (choices : List Bool) (l : List (PortIn v.k)) (n : Nat),
    ∃ d e rs,
      runSteps n ((State.resetOf v (.deferred batch choices)).setInputs l) = .next (d, rs) ∧
      runSteps n ((State.resetOf v .eager).setInputs l) = .next (e, rs) ∧
      d.sum1.toNat = e.sum1.toNat ∧ d.sum2.toNat = e.sum2.toNat

/-- R74: the bounds of a batch from any start bounds and from the folded start, attained when every value is `M`, and exactly
when no batch of `n` units can overflow. -/
def Obligations.BatchBoundIsExact : Prop :=
  ∀ (v : Variant) (A : Nat) (n : Nat),
    (∀ (b1 b2 : Nat) (us : List Nat), us.length = n → (∀ u ∈ us, u ≤ modulus v.k) →
      (plainBatch (b1, b2) us).1 ≤ b1 + n * modulus v.k ∧
      (plainBatch (b1, b2) us).2 ≤ b2 + n * b1 + modulus v.k * n * (n + 1) / 2) ∧
    (∀ us : List Nat, us.length = n → (∀ u ∈ us, u ≤ modulus v.k) →
      (plainBatch (modulus v.k, modulus v.k) us).1 ≤ (n + 1) * modulus v.k ∧
      (plainBatch (modulus v.k, modulus v.k) us).2 ≤ modulus v.k * (n + 1) * (n + 2) / 2) ∧
    (plainBatch (modulus v.k, modulus v.k) (List.replicate n (modulus v.k))).1 = (n + 1) * modulus v.k ∧
    (plainBatch (modulus v.k, modulus v.k) (List.replicate n (modulus v.k))).2 =
      modulus v.k * (n + 1) * (n + 2) / 2 ∧
    ((∀ us : List Nat, us.length = n → (∀ u ∈ us, u ≤ modulus v.k) →
      (plainBatch (modulus v.k, modulus v.k) us).2 ≤ 2 ^ A - 1) ↔ modulus v.k * (n + 1) * (n + 2) / 2 ≤ 2 ^ A - 1)

/-- R74, R77, R71: `Nmax(A, k)` is the largest safe batch, and exactly the pairs `(A, N)` with `1 <= N <= Nmax(A, k)` can be
built; the others are rejected. -/
def Obligations.NmaxIsTheLargestSafeBatch : Prop :=
  ∀ (v : Variant) (A : Nat),
    (∀ n, 1 ≤ n → (modulus v.k * (n + 1) * (n + 2) / 2 ≤ 2 ^ A - 1 ↔ n ≤ nmax A v.k)) ∧
    (∀ N, (Batch.build v.k A N).isSome = true ↔ (1 ≤ N ∧ N ≤ nmax A v.k)) ∧
    (∀ b : Batch v.k, v.k ≤ b.A)

/-- R75: the table of `Nmax` and of the worst values at its edges; in each of its rows, which the last clause names by
`(A, k)`, the worst-case batch of `Nmax` units fits `A` bits and that of `Nmax + 1` units overflows them. -/
def Obligations.NmaxTable : Prop :=
  nmax 8 8 = 0 ∧ nmax 9 8 = 0 ∧ nmax 10 8 = 1 ∧ nmax 16 8 = 21 ∧ nmax 32 8 = 5802 ∧ nmax 64 8 = 380368695 ∧
  nmax 16 16 = 0 ∧ nmax 17 16 = 0 ∧ nmax 32 16 = 360 ∧ nmax 48 16 = 92681 ∧ nmax 64 16 = 23726745 ∧
  nmax 32 32 = 0 ∧ nmax 33 32 = 0 ∧ nmax 64 32 = 92680 ∧ nmax 128 32 = 398065729579200 ∧
  modulus 8 * (1 + 1) * (1 + 2) / 2 = 0x2FD ∧
  modulus 8 * (21 + 1) * (21 + 2) / 2 = 0xFC03 ∧ modulus 8 * (22 + 1) * (22 + 2) / 2 = 0x112EC ∧
  modulus 8 * (5802 + 1) * (5802 + 2) / 2 = 0xFFF57B8E ∧ modulus 8 * (5803 + 1) * (5803 + 2) / 2 = 0x1000C10E2 ∧
  modulus 8 * (380368695 + 1) * (380368695 + 2) / 2 = 0xFFFFFFF4276D3244 ∧
  modulus 16 * (360 + 1) * (360 + 2) / 2 = 0xFF3C00C3 ∧ modulus 16 * (361 + 1) * (361 + 2) / 2 = 0x100A5FF59 ∧
  modulus 16 * (92681 + 1) * (92681 + 2) / 2 = 0xFFFFD93626C9 ∧
  modulus 16 * (23726745 + 1) * (23726745 + 2) / 2 = 0xFFFFFEB038EDC861 ∧
  modulus 32 * (92680 + 1) * (92680 + 2) / 2 = 0xFFFF6F2C000090D3 ∧
  (∀ row ∈ [(8, 8), (9, 8), (10, 8), (16, 8), (32, 8), (64, 8)] ++ [(16, 16), (17, 16), (32, 16), (48, 16), (64, 16)] ++
      [(32, 32), (33, 32), (64, 32), (128, 32)],
    modulus row.2 * (nmax row.1 row.2 + 1) * (nmax row.1 row.2 + 2) / 2 ≤ 2 ^ row.1 - 1 ∧
    2 ^ row.1 - 1 < modulus row.2 * (nmax row.1 row.2 + 1 + 1) * (nmax row.1 row.2 + 1 + 2) / 2)

/-! ### Encoding and text -/

/-- R31 to R34: every command word decodes to exactly one well-formed command, by its low two bits alone, UPD taking the rest
as its unit; the all-zero word is `UPD 0`; re-encoding a word gives it back, with the ignored data field cleared. -/
def Obligations.EveryWordIsACommand : Prop :=
  ∀ (v : Variant) (cmd : CmdWord v.k),
    (cmd.toNat % 4 = 0 → decode cmd = .upd (cmd.toNat / 4)) ∧ (cmd.toNat % 4 = 1 → decode cmd = .val) ∧
    (cmd.toNat % 4 = 2 → decode cmd = .rst) ∧ (cmd.toNat % 4 = 3 → decode cmd = .chk) ∧
    (decode cmd).wellFormed v.k = true ∧ decode (0 : CmdWord v.k) = .upd 0 ∧
    (encode v.k (decode cmd)).toNat = (if cmd.toNat % 4 = 0 then cmd.toNat else cmd.toNat % 4)

/-- R31, R32, R38: decoding what the encoder writes gives the command back, for every well-formed command of every variant,
at every unit. -/
def Obligations.DecodeEncodeRoundTrip : Prop :=
  ∀ (v : Variant) (i : Instr), i.wellFormed v.k = true → decode (encode v.k i) = i

/-- 30_encoding.md section 5: the worked encodings. -/
def Obligations.WorkedEncodingsDecode : Prop :=
  decode (0b1100000100#10 : CmdWord 8) = .upd 0xC1 ∧ decode (0b0000000000#10 : CmdWord 8) = .upd 0 ∧
  decode (0b1111111100#10 : CmdWord 8) = .upd 0xFF ∧ decode (0b0000000001#10 : CmdWord 8) = .val ∧
  decode (0b0000000010#10 : CmdWord 8) = .rst ∧ decode (0b0000000011#10 : CmdWord 8) = .chk ∧
  decode (0b1010010101#10 : CmdWord 8) = .val ∧ decode (0b011000100110000100#18 : CmdWord 16) = .upd 0x6261 ∧
  decode (0x3FFFC#18 : CmdWord 16) = .upd 0xFFFF ∧ decode (0x3FFFFFFF8#34 : CmdWord 32) = .upd 0xFFFFFFFE ∧
  decode (0x000000003#34 : CmdWord 32) = .chk

/-- R38, R81: the assembler's words; a unit that does not fit `k` bits is an assembly-time error; the width is stated once;
the disassembler's text reads back as the decoded command, VAL, RST and CHK without operand. What R38 leaves open of the text is
log 16's. -/
def Obligations.AssemblerAndDisassembler : Prop :=
  ∀ v : Variant,
    (∀ u, u ≤ modulus v.k → ∃ w, assembleLine v.k (.instr (.upd u)) = .ok [w] ∧ w.toNat = u <<< 2) ∧
    (∀ u, modulus v.k < u → assembleLine v.k (.instr (.upd u)) = .error .unitTooWide) ∧
    assembleLine v.k (.instr .val) = .ok [1] ∧ assembleLine v.k (.instr .rst) = .ok [2] ∧
    assembleLine v.k (.instr .chk) = .ok [3] ∧
    (∀ w w' ls, Line.width w' ∈ ls → ∃ e, assembleProgram (.width w :: ls) = .error e) ∧
    (∀ cmd : CmdWord v.k, parseLine (tokens [] (disassemble cmd)) = .ok (.instr (decode cmd))) ∧
    (∀ data : Word v.k, disassemble (commandWord data 0b01#2) = "VAL".toList ∧
      disassemble (commandWord data 0b10#2) = "RST".toList ∧ disassemble (commandWord data 0b11#2) = "CHK".toList)

/-- R39: the expansions, as command lists and as assembled words; of NEW's two forms, the one that is a command (log 16). -/
def Obligations.PseudoInstructionExpansions : Prop :=
  (∀ us, expand (.upds us) = us.map Instr.upd) ∧
  (∀ us, expand (.calc us) = [.rst] ++ expand (.upds us) ++ [.val]) ∧
  (∀ us, expand (.checkValues us) = [.rst] ++ expand (.upds us) ++ [.chk]) ∧
  expand .new = [.rst] ∧
  (∀ (v : Variant) (p : Pseudo), p.wellFormed v.k = true →
    assembleLine v.k (.pseudo p) = .ok ((expand p).map (encode v.k)))
end

