-- ==== Sys2Proof/Laws/Arithmetic.lean ====
section
/-! SUPPORT. Laws/Arithmetic.lean: each arithmetic function of spec/40_arithmetic.md as a function on natural numbers. -/

namespace Sys2Proof

theorem Variant.k_pos (v : Variant) : 0 < v.k := by cases v <;> decide

theorem modulus_add_one (k : Nat) : modulus k + 1 = 2 ^ k := Nat.sub_add_cancel Nat.one_le_two_pow

theorem one_lt_modulus (v : Variant) : 1 < modulus v.k := by cases v <;> decide

namespace Machine

theorem toNat_le_modulus {k : Nat} (a : Word k) : a.toNat ≤ modulus k := by
  have := a.isLt
  have := modulus_add_one k
  omega

theorem allOnes_toNat (k : Nat) : (BitVec.allOnes k).toNat = modulus k := BitVec.toNat_allOnes

theorem isAllOnes_iff {k : Nat} (a : Word k) : isAllOnes a = true ↔ a.toNat = modulus k := by
  rw [isAllOnes, beq_iff_eq, ← BitVec.toNat_inj, allOnes_toNat]

/-- A residue below `M`, seen as a value in `[1, M]`, by its remainder. -/
theorem fold_pos {k n : Nat} (h : n ≠ 0) : fold k n = (n - 1) % modulus k + 1 := by simp [fold, h]

@[simp] theorem fold_zero (k : Nat) : fold k 0 = 0 := by simp [fold]

theorem fold_le {k : Nat} (hk : 0 < modulus k) (n : Nat) : fold k n ≤ modulus k := by
  unfold fold
  split
  · omega
  · have := Nat.mod_lt (n - 1) hk
    omega

theorem fold_mod {k : Nat} (n : Nat) : fold k n % modulus k = n % modulus k := by
  by_cases h : n = 0
  · simp [h]
  · rw [fold_pos h, Nat.mod_add_mod, Nat.sub_add_cancel (Nat.pos_of_ne_zero h)]

theorem fold_eq_zero {k n : Nat} : fold k n = 0 ↔ n = 0 := by
  unfold fold
  split <;> simp_all

/-- The fold is the one value in `[0, M]` that is congruent to `n` and is 0 exactly when `n` is. -/
theorem fold_unique {k r n : Nat} (hle : r ≤ modulus k) (hmod : r % modulus k = n % modulus k)
    (hzero : r = 0 ↔ n = 0) : r = fold k n := by
  by_cases hn : n = 0
  · simp [hn, hzero.2 hn]
  · have hr : r ≠ 0 := fun h => hn (hzero.1 h)
    have hm : 0 < modulus k := by omega
    have h1 : (r - 1) % modulus k = (n - 1) % modulus k := by
      have : (r - 1 + 1) ≡ (n - 1 + 1) [MOD modulus k] := by
        have e1 : r - 1 + 1 = r := by omega
        have e2 : n - 1 + 1 = n := by omega
        rw [e1, e2]
        exact hmod
      exact Nat.ModEq.add_right_cancel' 1 this
    rw [fold_pos hn, ← h1, Nat.mod_eq_of_lt (by omega)]
    omega

theorem carryOut_iff {k : Nat} (a b : Word k) : carryOut a b = decide (2 ^ k ≤ a.toNat + b.toNat) := by
  have ha := a.isLt
  have hb := b.isLt
  rw [carryOut, wideSum, ← BitVec.testBit_toNat, BitVec.toNat_add, BitVec.toNat_setWidth, BitVec.toNat_setWidth,
    Nat.mod_eq_of_lt (by rw [pow_succ]; omega : a.toNat < 2 ^ (k + 1)),
    Nat.mod_eq_of_lt (by rw [pow_succ]; omega : b.toNat < 2 ^ (k + 1)),
    Nat.mod_eq_of_lt (by rw [pow_succ]; omega : a.toNat + b.toNat < 2 ^ (k + 1)), Nat.testBit_eq_decide_div_mod_eq]
  congr 1
  by_cases h : 2 ^ k ≤ a.toNat + b.toNat
  · have : (a.toNat + b.toNat) / 2 ^ k = 1 :=
      Nat.div_eq_of_lt_le (by omega) (by omega)
    simp [h, this]
  · simp [h, Nat.div_eq_of_lt (Nat.lt_of_not_le h)]

/-- The end-around-carry adder on numbers: the sum, less `M` when it carries. -/
theorem ocadd_toNat {k : Nat} (hk : 0 < k) (a b : Word k) :
    (ocadd a b).toNat = if a.toNat + b.toNat ≤ modulus k then a.toNat + b.toNat else a.toNat + b.toNat - modulus k := by
  have ha := a.isLt
  have hb := b.isLt
  have hM := modulus_add_one k
  have h2 : 1 < 2 ^ k := Nat.one_lt_two_pow (by omega)
  rw [ocadd, carryOut_iff, BitVec.toNat_add, BitVec.toNat_setWidth, wideSum, BitVec.toNat_add, BitVec.toNat_setWidth,
    BitVec.toNat_setWidth, Nat.mod_eq_of_lt (by rw [pow_succ]; omega : a.toNat < 2 ^ (k + 1)),
    Nat.mod_eq_of_lt (by rw [pow_succ]; omega : b.toNat < 2 ^ (k + 1)),
    Nat.mod_eq_of_lt (by rw [pow_succ]; omega : a.toNat + b.toNat < 2 ^ (k + 1)), BitVec.toNat_ofNat]
  by_cases h : a.toNat + b.toNat ≤ modulus k
  · have hc : ¬ (2 ^ k ≤ a.toNat + b.toNat) := by omega
    simp only [hc, decide_false, Bool.toNat_false, Nat.zero_mod, h, if_true, Nat.add_zero, Nat.mod_mod]
    exact Nat.mod_eq_of_lt (by omega)
  · have hc : 2 ^ k ≤ a.toNat + b.toNat := by omega
    simp only [hc, decide_true, Bool.toNat_true, h, if_false, Nat.mod_add_mod, Nat.add_mod_mod]
    rw [show a.toNat + b.toNat + 1 = (a.toNat + b.toNat - modulus k) + 2 ^ k by omega, Nat.add_mod_right]
    exact Nat.mod_eq_of_lt (by omega)

theorem canon_toNat {k : Nat} (a : Word k) : (canon a).toNat = if a.toNat = modulus k then 0 else a.toNat := by
  unfold canon
  by_cases h : a.toNat = modulus k
  · rw [if_pos ((isAllOnes_iff a).2 h), if_pos h]
    rfl
  · rw [if_neg (fun e => h ((isAllOnes_iff a).1 e)), if_neg h]

theorem canon_toNat_mod {k : Nat} (_hk : 0 < modulus k) (a : Word k) : (canon a).toNat = a.toNat % modulus k := by
  have := toNat_le_modulus a
  rw [canon_toNat]
  split
  · simp [*]
  · rw [Nat.mod_eq_of_lt (by omega)]

theorem modadd_toNat {k : Nat} (a b : Word k) (ha : a.toNat < modulus k) (hb : b.toNat < modulus k) :
    (modadd a b).toNat = (a.toNat + b.toNat) % modulus k := by
  have hM := modulus_add_one k
  rw [modadd, BitVec.toNat_ofNat]
  by_cases h : modulus k ≤ a.toNat + b.toNat
  · rw [if_pos (by simpa [reachesModulus] using h), Nat.mod_eq_of_lt (by omega), Nat.mod_eq_sub_mod h,
      Nat.mod_eq_of_lt (by omega)]
  · rw [if_neg (by simpa [reachesModulus] using h), Nat.mod_eq_of_lt (by omega), Nat.mod_eq_of_lt (by omega)]

theorem ocneg_toNat {k : Nat} (a : Word k) : (ocneg a).toNat = modulus k - a.toNat := by
  rw [ocneg, BitVec.toNat_not, modulus]

theorem checkValue_toNat {k : Nat} (t : Word k) :
    (checkValue t).toNat = if modulus k - t.toNat = modulus k then 0 else modulus k - t.toNat := by
  have ht := toNat_le_modulus t
  have hs : (BitVec.allOnes k - t).toNat = modulus k - t.toNat := by
    rw [BitVec.toNat_sub_of_le, allOnes_toNat]
    rw [BitVec.le_def, allOnes_toNat]
    exact ht
  unfold checkValue
  by_cases h : modulus k - t.toNat = modulus k
  · rw [if_pos ((isAllOnes_iff _).2 (hs.trans h)), if_pos h]
    rfl
  · rw [if_neg (fun e => h (hs.symm.trans ((isAllOnes_iff _).1 e))), if_neg h, hs]

end Machine

end Sys2Proof
end

