-- ==== Sys2Proof/Laws/State.lean ====
section
/-! SUPPORT. Laws/State.lean: what each named update of the state leaves in each field, true by rfl. -/

namespace Sys2Proof.Machine

@[simp] theorem setAccs_variant (s : State) (a) : (s.setAccs a).variant = s.variant := rfl
@[simp] theorem setAccs_hasValue (s : State) (a) : (s.setAccs a).hasValue = s.hasValue := rfl
@[simp] theorem setAccs_accs (s : State) (a) : (s.setAccs a).accs = a := rfl
@[simp] theorem setAccs_inputs (s : State) (a) : (s.setAccs a).inputs = s.inputs := rfl
@[simp] theorem setAccs_rsp (s : State) (a) : (s.setAccs a).rsp = s.rsp := rfl

@[simp] theorem setInputs_variant (s : State) (l) : (s.setInputs l).variant = s.variant := rfl
@[simp] theorem setInputs_hasValue (s : State) (l) : (s.setInputs l).hasValue = s.hasValue := rfl
@[simp] theorem setInputs_accs (s : State) (l) : (s.setInputs l).accs = s.accs := rfl
@[simp] theorem setInputs_inputs (s : State) (l) : (s.setInputs l).inputs = l := rfl
@[simp] theorem setInputs_rsp (s : State) (l) : (s.setInputs l).rsp = s.rsp := rfl

@[simp] theorem silent_variant (s : State) : s.silent.variant = s.variant := rfl
@[simp] theorem silent_hasValue (s : State) : s.silent.hasValue = s.hasValue := rfl
@[simp] theorem silent_accs (s : State) : s.silent.accs = s.accs := rfl
@[simp] theorem silent_inputs (s : State) : s.silent.inputs = s.inputs := rfl
@[simp] theorem silent_rsp (s : State) : s.silent.rsp = none := rfl

@[simp] theorem respond_variant (s : State) (r) : (s.respond r).variant = s.variant := rfl
@[simp] theorem respond_hasValue (s : State) (r) : (s.respond r).hasValue = s.hasValue := rfl
@[simp] theorem respond_accs (s : State) (r) : (s.respond r).accs = s.accs := rfl
@[simp] theorem respond_inputs (s : State) (r) : (s.respond r).inputs = s.inputs := rfl
@[simp] theorem respond_rsp (s : State) (r) : (s.respond r).rsp = some r := rfl

@[simp] theorem empty_variant (s : State) : s.empty.variant = s.variant := rfl
@[simp] theorem empty_hasValue (s : State) : s.empty.hasValue = true := rfl
@[simp] theorem empty_accs (s : State) : s.empty.accs = s.accs.clear := rfl
@[simp] theorem empty_inputs (s : State) : s.empty.inputs = s.inputs := rfl
@[simp] theorem empty_rsp (s : State) : s.empty.rsp = none := rfl

@[simp] theorem foldByChoice_variant (s : State) : s.foldByChoice.variant = s.variant := rfl
@[simp] theorem foldByChoice_hasValue (s : State) : s.foldByChoice.hasValue = s.hasValue := rfl
@[simp] theorem foldByChoice_accs (s : State) : s.foldByChoice.accs = s.accs.foldByChoice := rfl
@[simp] theorem foldByChoice_inputs (s : State) : s.foldByChoice.inputs = s.inputs := rfl
@[simp] theorem foldByChoice_rsp (s : State) : s.foldByChoice.rsp = s.rsp := rfl

@[simp] theorem resetOf_variant (v : Variant) (b) : (State.resetOf v b).variant = v := rfl
@[simp] theorem resetOf_hasValue (v : Variant) (b) : (State.resetOf v b).hasValue = true := rfl
@[simp] theorem resetOf_accs (v : Variant) (b) : (State.resetOf v b).accs = .ofBuild b := rfl
@[simp] theorem resetOf_inputs (v : Variant) (b) : (State.resetOf v b).inputs = [] := rfl
@[simp] theorem resetOf_rsp (v : Variant) (b) : (State.resetOf v b).rsp = none := rfl

/-- Naming a field's value is updating it with that value. -/
theorem setAccs_of_accs {s : State} {a : Accs s.variant.k} (h : s.accs = a) : s.setAccs a = s := by
  cases h
  rfl

theorem setInputs_of_inputs {s : State} {l : List (PortIn s.variant.k)} (h : s.inputs = l) : s.setInputs l = s := by
  cases h
  rfl

end Sys2Proof.Machine
end

