-- ==== Sys2Proof/Laws/Machine.lean ====
section
/-! SUPPORT. Laws/Machine.lean: one lemma per shared operation, meaning and step, which proofs cite instead of unfolding them. -/

namespace Sys2Proof.Machine

/-! ### Accumulators -/

@[simp] theorem eager_sum1 {k : Nat} (a b : Word k) : (Accs.eager a b).sum1 = a := rfl
@[simp] theorem eager_sum2 {k : Nat} (a b : Word k) : (Accs.eager a b).sum2 = b := rfl
@[simp] theorem deferred_sum1 {k : Nat} (h : Hidden k) : (Accs.deferred h).sum1 = h.sum1 := rfl
@[simp] theorem deferred_sum2 {k : Nat} (h : Hidden k) : (Accs.deferred h).sum2 = h.sum2 := rfl

@[simp] theorem absorb_eager {k : Nat} (x a b : Word k) :
    (Accs.eager a b).absorb x = .eager (ocadd a x) (ocadd b (ocadd a x)) := rfl
@[simp] theorem absorb_deferred {k : Nat} (x : Word k) (h : Hidden k) :
    (Accs.deferred h).absorb x = .deferred (h.absorb x) := rfl
@[simp] theorem clear_eager {k : Nat} (a b : Word k) : (Accs.eager a b).clear = .eager 0 0 := rfl
@[simp] theorem clear_deferred {k : Nat} (h : Hidden k) : (Accs.deferred h).clear = .deferred h.clear := rfl
@[simp] theorem foldByChoice_eager {k : Nat} (a b : Word k) : (Accs.eager a b).foldByChoice = .eager a b := rfl
@[simp] theorem foldByChoice_deferred {k : Nat} (h : Hidden k) :
    (Accs.deferred h).foldByChoice = .deferred h.foldByChoice := rfl

@[simp] theorem withinBatch_eager {k : Nat} (a b : Word k) : (Accs.eager a b).WithinBatch := trivial
@[simp] theorem withinBatch_deferred {k : Nat} (h : Hidden k) : (Accs.deferred h).WithinBatch ↔ h.WithinBatch := Iff.rfl

theorem hidden_sum1_toNat (v : Variant) (h : Hidden v.k) : h.sum1.toNat = fold v.k h.acc1.toNat := by
  have := fold_le (Nat.lt_of_succ_lt (one_lt_modulus v)) h.acc1.toNat
  have := modulus_add_one v.k
  rw [Hidden.sum1, BitVec.toNat_ofNat, Nat.mod_eq_of_lt (by omega)]

theorem hidden_sum2_toNat (v : Variant) (h : Hidden v.k) : h.sum2.toNat = fold v.k h.acc2.toNat := by
  have := fold_le (Nat.lt_of_succ_lt (one_lt_modulus v)) h.acc2.toNat
  have := modulus_add_one v.k
  rw [Hidden.sum2, BitVec.toNat_ofNat, Nat.mod_eq_of_lt (by omega)]

/-- The batch bound of a build, as an inequality (R74). -/
theorem batch_bound {k : Nat} (b : Batch k) :
    1 ≤ b.N ∧ modulus k * (b.N + 1) * (b.N + 2) / 2 ≤ 2 ^ b.A - 1 := by
  have := b.legal
  simpa [batchLegal, batchFits] using this

theorem foldBoth_spec {k : Nat} (h : Hidden k) :
    h.foldBoth.batch = h.batch ∧ h.foldBoth.foldChoices = h.foldChoices ∧ h.foldBoth.cnt = 0 := ⟨rfl, rfl, rfl⟩

theorem foldWhenFull_spec {k : Nat} (h : Hidden k) :
    (h.cnt = h.batch.N ∧ h.foldWhenFull = h.foldBoth) ∨ (h.cnt ≠ h.batch.N ∧ h.foldWhenFull = h) := by
  unfold Hidden.foldWhenFull
  split <;> simp_all

theorem foldByChoice_spec {k : Nat} (h : Hidden k) :
    h.foldByChoice = { h with foldChoices := h.foldChoices.tail } ∨
      h.foldByChoice = { h.foldBoth with foldChoices := h.foldChoices.tail } := by
  unfold Hidden.foldByChoice
  split <;> rename_i e <;> simp [e]
  left
  cases h
  simp_all

/-! ### Meanings -/

theorem exec_upd_of_value {s : State} (x : Nat) (h : s.hasValue = true) :
    exec (.upd x) s = .next (s.setAccs (s.accs.absorb (unitOperand s.variant.k x))).silent := by
  simp [exec, execUpd, h]

theorem exec_upd_of_no_value {s : State} (x : Nat) (h : s.hasValue = false) : exec (.upd x) s = .next s.silent := by
  simp [exec, execUpd, h]

theorem exec_val_of_value {s : State} (h : s.hasValue = true) :
    exec .val s = .next (s.respond s.accs.valueRsp) := by simp [exec, execVal, h]

theorem exec_val_of_no_value {s : State} (h : s.hasValue = false) :
    exec .val s = .refused .beforeFirstReset := by simp [exec, execVal, h]

theorem exec_rst (s : State) : exec .rst s = .next s.empty := rfl

theorem exec_chk_of_value {s : State} (h : s.hasValue = true) :
    exec .chk s = .next (s.respond s.accs.checkRsp) := by simp [exec, execChk, h]

theorem exec_chk_of_no_value {s : State} (h : s.hasValue = false) :
    exec .chk s = .refused .beforeFirstReset := by simp [exec, execChk, h]

/-- Everything a command can do when it answers a next state. -/
theorem exec_next_cases {i : Instr} {s t : State} (h : exec i s = .next t) :
    (∃ x, i = .upd x ∧ s.hasValue = true ∧
      t = (s.setAccs (s.accs.absorb (unitOperand s.variant.k x))).silent) ∨
    (∃ x, i = .upd x ∧ s.hasValue = false ∧ t = s.silent) ∨
    (i = .val ∧ s.hasValue = true ∧ t = s.respond s.accs.valueRsp) ∨
    (i = .rst ∧ t = s.empty) ∨
    (i = .chk ∧ s.hasValue = true ∧ t = s.respond s.accs.checkRsp) := by
  cases i with
  | upd x =>
    cases hv : s.hasValue with
    | true => rw [exec_upd_of_value x hv] at h; cases h; exact .inl ⟨x, rfl, rfl, rfl⟩
    | false => rw [exec_upd_of_no_value x hv] at h; cases h; exact .inr (.inl ⟨x, rfl, rfl, rfl⟩)
  | val =>
    cases hv : s.hasValue with
    | true => rw [exec_val_of_value hv] at h; cases h; exact .inr (.inr (.inl ⟨rfl, rfl, rfl⟩))
    | false => rw [exec_val_of_no_value hv] at h; cases h
  | rst => cases h; exact .inr (.inr (.inr (.inl ⟨rfl, rfl⟩)))
  | chk =>
    cases hv : s.hasValue with
    | true => rw [exec_chk_of_value hv] at h; cases h; exact .inr (.inr (.inr (.inr ⟨rfl, rfl, rfl⟩)))
    | false => rw [exec_chk_of_no_value hv] at h; cases h

/-! ### The step -/

theorem step_nil {s : State} (h : s.inputs = []) : step s = .next s.foldByChoice.silent := by
  unfold step
  split
  · rfl
  · rename_i e
    simp [h] at e

theorem step_cons {s : State} {p : PortIn s.variant.k} {rest : List (PortIn s.variant.k)}
    (h : s.inputs = p :: rest) : step s = stepInput (s.foldByChoice.setInputs rest) p := by
  unfold step
  split
  · rename_i e
    simp [h] at e
  · rename_i e
    rw [h] at e
    cases e
    rfl

theorem stepInput_rst {s : State} {p : PortIn s.variant.k} (h : p.rst = true) :
    stepInput s p = .next s.empty := by simp [stepInput, h]

theorem stepInput_command {s : State} {p : PortIn s.variant.k} (h : p.rst = false) (hv : p.cmdValid = true) :
    stepInput s p = exec (decode p.cmd) s := by simp [stepInput, h, hv]

theorem stepInput_idle {s : State} {p : PortIn s.variant.k} (h : p.rst = false) (hv : p.cmdValid = false) :
    stepInput s p = .next s.silent := by simp [stepInput, h, hv]

theorem step_of_rst {s : State} {p : PortIn s.variant.k} {rest : List (PortIn s.variant.k)}
    (hi : s.inputs = p :: rest) (h : p.rst = true) : step s = .next (s.foldByChoice.setInputs rest).empty :=
  (step_cons hi).trans (stepInput_rst (s := s.foldByChoice.setInputs rest) h)

theorem step_of_command {s : State} {p : PortIn s.variant.k} {rest : List (PortIn s.variant.k)}
    (hi : s.inputs = p :: rest) (h : p.rst = false) (hv : p.cmdValid = true) :
    step s = exec (decode p.cmd) (s.foldByChoice.setInputs rest) :=
  (step_cons hi).trans (stepInput_command (s := s.foldByChoice.setInputs rest) h hv)

theorem step_of_idle {s : State} {p : PortIn s.variant.k} {rest : List (PortIn s.variant.k)}
    (hi : s.inputs = p :: rest) (h : p.rst = false) (hv : p.cmdValid = false) :
    step s = .next (s.foldByChoice.setInputs rest).silent :=
  (step_cons hi).trans (stepInput_idle (s := s.foldByChoice.setInputs rest) h hv)

/-- Everything a step can do when it answers a next state. -/
theorem step_next_cases {s t : State} (h : step s = .next t) :
    (s.inputs = [] ∧ t = s.foldByChoice.silent) ∨
    ∃ p rest, s.inputs = p :: rest ∧
      ((p.rst = true ∧ t = (s.foldByChoice.setInputs rest).empty) ∨
      (p.rst = false ∧ p.cmdValid = true ∧ exec (decode p.cmd) (s.foldByChoice.setInputs rest) = .next t) ∨
      (p.rst = false ∧ p.cmdValid = false ∧ t = (s.foldByChoice.setInputs rest).silent)) := by
  cases hs : s.inputs with
  | nil => rw [step_nil hs] at h; cases h; exact .inl ⟨rfl, rfl⟩
  | cons p rest =>
    refine .inr ⟨p, rest, rfl, ?_⟩
    cases hr : p.rst with
    | true => rw [step_of_rst hs hr] at h; cases h; exact .inl ⟨rfl, rfl⟩
    | false =>
      cases hc : p.cmdValid with
      | true => exact .inr (.inl ⟨rfl, rfl, (step_of_command hs hr hc).symm.trans h⟩)
      | false => rw [step_of_idle hs hr hc] at h; cases h; exact .inr (.inr ⟨rfl, rfl, rfl⟩)

/-! ### Runs -/

@[simp] theorem run_nil (s : State) : run [] s = .next (s, []) := rfl

theorem run_cons_next {i : Instr} {s t u : State} {rs : List Response} (is : List Instr)
    (h : exec i s = .next t) (ht : run is t = .next (u, rs)) :
    run (i :: is) s = .next (u, t.response.toList ++ rs) := by simp [run, h, ht]

theorem run_append_next {is : List Instr} {s t : State} {rs : List Response} (js : List Instr)
    (h : run is s = .next (t, rs)) :
    run (is ++ js) s = mapNext (fun p => (p.1, rs ++ p.2)) (run js t) := by
  induction is generalizing s rs with
  | nil =>
    cases h
    cases e : run js t <;> simp [e, mapNext]
  | cons i is ih =>
    simp only [run, List.cons_append] at h ⊢
    cases e : exec i s with
    | fault r => cases r
    | refused r => simp [e] at h
    | next u =>
      simp only [e] at h ⊢
      cases e2 : run is u with
      | fault r => cases r
      | refused r => simp [e2] at h
      | next q =>
        obtain ⟨w, ws⟩ := q
        simp only [e2] at h
        cases h
        rw [ih e2]
        cases run js t <;> simp [mapNext]

end Sys2Proof.Machine
end

