-- ==== Sys2Proof/Laws/PerInstr.lean ====
section
/-! SUPPORT. Laws/PerInstr.lean: per command, as syntax: the two fields of its encoded word (spec/30_encoding.md R31, R32). -/

namespace Sys2Proof

theorem opField_commandWord {k : Nat} (data : Word k) (op : BitVec 2) : opField (commandWord data op) = op := by
  rw [opField, commandWord, BitVec.extractLsb'_append_eq_right]

theorem dataField_commandWord {k : Nat} (data : Word k) (op : BitVec 2) : dataField (commandWord data op) = data := by
  rw [dataField, commandWord, BitVec.extractLsb'_append_eq_left]

namespace Laws.EncodedFields

/-- The encoded word holds the command's operation code and, in its data field, the unit or 0. -/
def Statement (i : Instr) : Prop :=
  ∀ k : Nat, opField (encode k i) = i.op ∧ dataField (encode k i) = i.data k

theorem upd (x : Nat) : Statement (.upd x) := fun _ => ⟨opField_commandWord _ _, dataField_commandWord _ _⟩

theorem val : Statement .val := fun _ => ⟨opField_commandWord _ _, dataField_commandWord _ _⟩

theorem rst : Statement .rst := fun _ => ⟨opField_commandWord _ _, dataField_commandWord _ _⟩

theorem chk : Statement .chk := fun _ => ⟨opField_commandWord _ _, dataField_commandWord _ _⟩

end Laws.EncodedFields

end Sys2Proof
end

