-- ==== Sys2Proof/Tests/Slice0.lean ====
section
/-! SUPPORT. Tests/Slice0.lean: tests and witnesses. Every expected value is a row of spec/95_test_vectors.md or of
spec/30_encoding.md section 5, or is worked out by hand from the rule named; each comment names it. The theorems `test_witness_<Name>`
show, for the obligation of that name, concrete states and operands that meet its hypotheses together. -/

namespace Sys2Proof.Tests

open Sys2Proof.Machine

/-! ### Helpers -/

/-- A Fletcher-16 instance with these registers. -/
abbrev st (a b : Word 8) : State :=
  { variant := .fletcher16, hasValue := true, accs := .eager a b, inputs := [], rsp := none }

/-- A Fletcher-16 instance that was never reset. -/
abbrev noValue : State := State.powerUp .fletcher16 (.eager 0x5A#8 0xA5#8)

/-- Section 2.7's deferred machine, `k = 8`, `A = 16`, `N = 21`. -/
abbrev batch21 : Batch 8 := ⟨16, 21, by decide⟩

/-- Section 2.7's second machine, `k = 8`, `A = 10`, `N = 1`. -/
abbrev batch1 : Batch 8 := ⟨10, 1, by decide⟩

abbrev hid (acc1 acc2 : BitVec 16) (cnt : Nat) (choices : List Bool) : Hidden 8 := ⟨batch21, acc1, acc2, cnt, choices⟩

/-- A deferred Fletcher-16 instance with these accumulators. -/
abbrev dst (acc1 acc2 : BitVec 16) (cnt : Nat) (choices : List Bool) : State :=
  { variant := .fletcher16, hasValue := true, accs := .deferred (hid acc1 acc2 cnt choices), inputs := [], rsp := none }

/-- A port input with a hardware reset and UPD C1 on the command port (program P6, step 1). -/
abbrev resetInput : PortIn 8 := ⟨true, true, 0x304#10⟩

/-- A port input with VAL on it, junk data (P6, step 4). -/
abbrev valInput : PortIn 8 := ⟨false, true, 0x295#10⟩

/-- A port input with RST on it, junk data (P6, step 5). -/
abbrev rstInput : PortIn 8 := ⟨false, true, 0x3FE#10⟩

/-- An idle port input, the bits of a CHK on the ignored command port (P6, step 3). -/
abbrev idleInput : PortIn 8 := ⟨false, false, 0x3FF#10⟩

/-- The next state of an outcome, so that outcomes can be compared. -/
def nextOf : Host.Outcome State Fault Refusal → Option State
  | .next s => some s
  | .fault _ => none
  | .refused _ => none

/-- The refusal of an outcome. -/
def refusalOf : Host.Outcome State Fault Refusal → Option Refusal
  | .next _ => none
  | .fault _ => none
  | .refused r => some r

theorem eq_next_of_nextOf {o : Host.Outcome State Fault Refusal} {t : State} (h : nextOf o = some t) : o = .next t := by
  cases o with
  | next s => exact congrArg _ (Option.some.inj h)
  | fault f => cases f
  | refused r => cases h

/-! ### Well-formedness: a unit that does not fit is refused (R21, R81) -/

theorem test_wf_upd_refuses_256_at_8 : Instr.wellFormed 8 (.upd 256) = false := by decide
theorem test_wf_upd_accepts_255_at_8 : Instr.wellFormed 8 (.upd 255) = true := by decide
theorem test_wf_upd_refuses_65536_at_16 : Instr.wellFormed 16 (.upd 65536) = false := by decide
theorem test_wf_upd_refuses_2_pow_32_at_32 : Instr.wellFormed 32 (.upd 4294967296) = false := by decide
theorem test_wf_upds_refuses_a_wide_unit : Pseudo.wellFormed 8 (.upds [1, 256]) = false := by decide
theorem test_wf_calc_refuses_a_wide_unit : Pseudo.wellFormed 8 (.calc [300, 2]) = false := by decide
theorem test_wf_checkValues_refuses_a_wide_unit : Pseudo.wellFormed 16 (.checkValues [65536]) = false := by decide
theorem test_batch_22_in_16_bits_is_rejected : Batch.build 8 16 22 = none := by decide
theorem test_batch_of_none_is_rejected : Batch.build 8 16 0 = none := by decide

/-! ### Decoding: words written out bit by bit (30_encoding.md section 5; 95_test_vectors.md section 2.8) -/

theorem test_decode_upd_C1 : decode (0b1100000100#10 : CmdWord 8) = .upd 0xC1 := by decide
theorem test_decode_upd_FF : decode (0b1111111100#10 : CmdWord 8) = .upd 0xFF := by decide
theorem test_decode_zero_word_is_upd : decode (0b0000000000#10 : CmdWord 8) = .upd 0 := by decide
theorem test_decode_val : decode (0b0000000001#10 : CmdWord 8) = .val := by decide
theorem test_decode_rst : decode (0b0000000010#10 : CmdWord 8) = .rst := by decide
theorem test_decode_chk : decode (0b0000000011#10 : CmdWord 8) = .chk := by decide
theorem test_decode_val_junk_A5 : decode (0b1010010101#10 : CmdWord 8) = .val := by decide
theorem test_decode_rst_junk_FF : decode (0b1111111110#10 : CmdWord 8) = .rst := by decide
theorem test_decode_chk_junk_FF : decode (0b1111111111#10 : CmdWord 8) = .chk := by decide
theorem test_decode_32_upd : decode (0b011000100110000100#18 : CmdWord 16) = .upd 0x6261 := by decide
theorem test_decode_32_chk : decode (0x00003#18 : CmdWord 16) = .chk := by decide
theorem test_decode_64_upd : decode (0x3FFFFFFF8#34 : CmdWord 32) = .upd 0xFFFFFFFE := by decide
theorem test_decode_64_rst : decode (0x000000002#34 : CmdWord 32) = .rst := by decide
theorem test_encode_16 : encode 8 (.upd 0xC1) = 0x304#10 := by decide
theorem test_encode_32 : encode 16 (.upd 0x6261) = 0x18984#18 := by decide
theorem test_encode_64 : encode 32 (.upd 0xFFFFFFFE) = 0x3FFFFFFF8#34 := by decide

theorem test_table_word_upd : decodeTableWord 16 0x304 = some (.upd 0xC1) := by decide
theorem test_table_word_chk : decodeTableWord 8 0x3 = some .chk := by decide
theorem test_table_word_beyond_the_port : decodeTableWord 16 0x400 = none := by decide

/-! ### The adder (section 2.1) -/

theorem test_fold_multiple_of_M : fold 8 0xFFFF = 0xFF := by decide
theorem test_fold_M_plus_1 : fold 8 0x100 = 0x01 := by decide
theorem test_fold_loop_two_passes : foldLoop 8 2 0xFFFF = 0xFF := by decide
theorem test_ocadd_lands_on_M : ocadd 0xFE#8 0x01#8 = 0xFF#8 := by decide
theorem test_ocadd_wraps : ocadd 0xC1#8 0x77#8 = 0x39#8 := by decide
theorem test_modadd_lands_on_M : modadd 0xFE#8 0x01#8 = 0x00#8 := by decide
theorem test_canon_all_ones : canon 0xFF#8 = 0x00#8 := by decide
theorem test_ocneg : ocneg 0x13#8 = 0xEC#8 := by decide

/-! ### UPD, VAL, RST, CHK (sections 1.1, 2.2, 2.4, 2.5) -/

/-- UPD on the registers: sections 1.1 and 2.2, `W = 16`; program P3, step 4, `W = 32`; program P4, step 5, `W = 64`. -/
theorem test_upd_registers :
    nextOf (exec (.upd 0x77) (st 0xC1 0xC1)) = some (st 0x39 0xFA) ∧
      nextOf (exec (.upd 0x02) (st 0xFE 0x10)) = some (st 0x01 0x11) ∧
      nextOf (exec (.upd 0x0065)
        { variant := .fletcher32, hasValue := true, accs := .eager 0xC6C4#16 0x2926#16, inputs := [], rsp := none }) =
      some { variant := .fletcher32, hasValue := true, accs := .eager 0xC729#16 0xF04F#16, inputs := [], rsp := none } ∧
      nextOf (exec (.upd 0x00000001)
        { variant := .fletcher64, hasValue := true, accs := .eager 0xFFFFFFFF#32 0xFFFFFFFE#32, inputs := [], rsp := none }) =
      some { variant := .fletcher64, hasValue := true, accs := .eager 0x00000001#32 0xFFFFFFFF#32, inputs := [],
             rsp := none } := by decide

/-- UPD on the wide accumulators, section 2.7: no reduction; the mandatory fold before the 22nd unit; `A = 10`, `N = 1`. -/
theorem test_upd_deferred :
    nextOf (exec (.upd 0x77) (dst 0x00C1 0x00C1 1 [])) = some (dst 0x0138 0x01F9 2 []) ∧
      nextOf (exec (.upd 0xFF) (dst 0x14EB 0xE619 21 [])) = some (dst 0x01FE 0x02FD 1 []) ∧
      (Hidden.mk batch1 0x138 0x1F9 1 []).absorb 0xE9#8 = ⟨batch1, 0x122, 0x21C, 1, []⟩ := by decide

/-- VAL, sections 2.4 and 2.7: `sum2` is the high half, all ones is reported as 0, the deferred machine folds. -/
theorem test_val :
    nextOf (exec .val (st 0xAD 0x3F)) = some ((st 0xAD 0x3F).respond (.value 0x3FAD#16)) ∧
      nextOf (exec .val (st 0xFF 0xFE)) = some ((st 0xFF 0xFE).respond (.value 0xFE00#16)) ∧
      nextOf (exec .val (dst 0x03AA 0x0E31 6 [])) = some ((dst 0x03AA 0x0E31 6 []).respond (.value 0x3FAD#16)) := by decide

/-- R92, I4. -/
theorem test_val_before_the_first_reset : refusalOf (exec .val noValue) = some .beforeFirstReset := by decide

/-- RST, section 2.4; on registers without value, R92. -/
theorem test_rst :
    nextOf (exec .rst (st 0x5A 0xA5)) = some (st 0x00 0x00) ∧ nextOf (exec .rst noValue) = some (st 0 0) := by decide

/-- CHK, section 2.5: the source vector's state, and both corrections of `M` to 0. -/
theorem test_chk :
    nextOf (exec .chk (st 0xAD 0x3F)) = some ((st 0xAD 0x3F).respond (.check 0x13#8 0x3F#8)) ∧
      nextOf (exec .chk (st 0x01 0xFF)) = some ((st 0x01 0xFF).respond (.check 0xFE#8 0x00#8)) := by decide

/-- R35, R37: on the port C0 is `rsp_lo`, C1 is `rsp_hi` (P1, step 10). -/
theorem test_chk_port_halves : (Rsp.check 0x13#8 0x3F#8).lo = 0x13#8 ∧ (Rsp.check 0x13#8 0x3F#8).hi = 0x3F#8 := by decide

/-! ### One step at the port (program P6; section 2.7) -/

theorem test_step_reset_wins : nextOf (step (noValue.setInputs [resetInput])) = some (st 0 0) := by decide
theorem test_step_idle_ignores_cmd : nextOf (step ((st 0xC1 0xC1).setInputs [idleInput])) = some (st 0xC1 0xC1) := by decide
theorem test_step_val_ignores_data :
    nextOf (step ((st 0xC1 0xC1).setInputs [valInput])) = some ((st 0xC1 0xC1).respond (.value 0xC1C1#16)) := by decide
theorem test_step_fetch_word_from_reset : nextOf (step (State.reset.withFetchWord 16 0x304)) = some (st 0xC1 0xC1) := by decide
theorem test_step_nothing_presented : nextOf (step State.reset) = some State.reset := by decide
/-- R72: an early fold, both accumulators together, the count cleared (folds of section 2.7). -/
theorem test_step_early_fold : nextOf (step (dst 0x03AA 0x0E31 6 [true])) = some (dst 0x00AD 0x003F 0 []) := by decide

/-! ### The assembler's text (R38, R39) -/

theorem test_assemble_three_commands :
    assemble ".width 16 ; source vector\nUPD 0xC1\nUPD 19 ; decimal\n\nVAL".toList =
      .ok ⟨.fletcher16, [0x304#10, 0x04C#10, 0x001#10]⟩ := by decide
theorem test_assemble_refuses_a_wide_unit : assemble ".width 16\nUPD 0x100".toList = .error .unitTooWide := by decide
theorem test_assemble_refuses_a_width : assemble ".width 24\nVAL".toList = .error .badWidth := by decide
theorem test_assemble_refuses_no_width : assemble "VAL".toList = .error .widthNotOnce := by decide
theorem test_assemble_refuses_an_operand_of_val : assemble ".width 16\nVAL 1".toList = .error .badLine := by decide
theorem test_assemble_checkvalues :
    assemble ".width 16\nCHECKVALUES 0xC1, 0x77".toList = .ok ⟨.fletcher16, [0x002#10, 0x304#10, 0x1DC#10, 0x003#10]⟩ := by
  decide
theorem test_assemble_empty_upds : assemble ".width 16\nUPDS".toList = .ok ⟨.fletcher16, []⟩ := by decide
theorem test_disassemble_upd : disassemble (0x304#10 : CmdWord 8) = "UPD 0xC1".toList := by decide
theorem test_disassemble_val_junk : disassemble (0x295#10 : CmdWord 8) = "VAL".toList := by decide

/-! ### Witnesses -/

/-- The hidden accumulators of section 2.7's worst case, after the 42nd unit: exactly on the bound. -/
theorem test_within_batch_at_the_edge : (hid 0x15EA 0xFC03 21 []).WithinBatch := by
  unfold Hidden.WithinBatch
  decide

theorem test_witness_StepRunsTheDecodedCommand :
    ((st 1 1).setInputs [valInput]).inputs = valInput :: [] ∧ valInput.rst = false ∧ valInput.cmdValid = true ∧
      (Instr.upd 255).wellFormed (st 1 1).variant.k = true ∧ (st 1 1).variant.k + 2 ≤ 10 ∧ (st 1 1).accs = .eager 1 1 :=
  ⟨rfl, by decide⟩

theorem test_witness_HardwareResetWins :
    ((st 1 1).setInputs [resetInput]).inputs = resetInput :: [] ∧ resetInput.rst = true ∧
      ((st 1 1).setInputs [resetInput]).accs = .eager 1 1 ∧
      (noValue.setInputs [resetInput]).inputs = resetInput :: [] ∧
      (⟨true, false, 0⟩ : PortIn 8).rst = true := ⟨rfl, rfl, rfl, rfl, rfl⟩

theorem test_witness_IdleStepHoldsTheState :
    ((dst 0x03AA 0x0E31 6 [true]).setInputs [idleInput]).inputs = idleInput :: [] ∧ idleInput.rst = false ∧
      idleInput.cmdValid = false ∧ (dst 0x03AA 0x0E31 6 [true]).inputs = [] ∧ (st 1 1).accs = .eager 1 1 :=
  ⟨rfl, by decide⟩

/-- Both ways: a step that responds, and the steps that do not (idle, reset, UPD). -/
theorem test_witness_ResponsesComeFromQueriesOnly :
    (step ((st 1 1).setInputs [valInput]) = .next ((st 1 1).respond (.value 0x0101#16))) ∧
      step ((st 1 1).setInputs [idleInput]) = .next (st 1 1) ∧
      step ((st 1 1).setInputs [resetInput]) = .next (st 0 0) ∧
      step ((st 1 1).setInputs [commandInput 8 (.upd 1)]) = .next (st 2 3) :=
  ⟨eq_next_of_nextOf (by decide), eq_next_of_nextOf (by decide), eq_next_of_nextOf (by decide), eq_next_of_nextOf (by decide)⟩

theorem test_witness_PortRunIsTheLeftFold :
    (st 1 1).accs = .eager 1 1 ∧ (st 1 1).inputs = [] ∧ ∀ i ∈ [Instr.upd 255, .val], i.wellFormed (st 1 1).variant.k = true := by
  decide

theorem test_witness_IdleStepsMayBeInserted :
    (st 1 1).accs = .eager 1 1 ∧ [idleInput, valInput, idleInput].filter (fun p => !p.isIdle) = [valInput] := by decide

theorem test_witness_ResetStateIsEmpty :
    (State.resetOf .fletcher16 (.deferred batch21 [true])).accs = .deferred ⟨batch21, 0, 0, 0, [true]⟩ ∧
      (State.resetOf .fletcher64 .eager).accs = .eager 0 0 := by decide

theorem test_witness_NoValueBeforeTheFirstReset :
    (noValue.setInputs [resetInput]).hasValue = false ∧
      (noValue.setInputs [resetInput]).inputs = resetInput :: [] ∧ resetInput.rst = true := ⟨rfl, rfl, rfl⟩

theorem test_witness_EveryCommandCompletes : (st 0xFF 0xFF).hasValue = true ∧ (dst 0 0 0 []).hasValue = true := by decide

theorem test_witness_BuildNeverChanges :
    step ((dst 0x00C1 0x00C1 1 [false]).setInputs [commandInput 8 (.upd 0x77)]) = .next (dst 0x0138 0x01F9 2 []) :=
  eq_next_of_nextOf (by decide)

theorem test_witness_CommandsChangeOnlyTheirOwn :
    exec (.upd 1) (st 1 1) = .next (st 2 3) ∧ exec .rst (st 1 1) = .next (st 0 0) ∧
      exec .val (st 1 1) = .next ((st 1 1).respond (.value 0x0101#16)) ∧
      exec .chk (st 1 1) = .next ((st 1 1).respond (.check 0xFD#8 0x01#8)) :=
  ⟨eq_next_of_nextOf (by decide), eq_next_of_nextOf (by decide), eq_next_of_nextOf (by decide), eq_next_of_nextOf (by decide)⟩

theorem test_witness_UpdAddsIntoBothRegisters : (st 0xFE 0x10).hasValue = true ∧ (st 0xFE 0x10).accs = .eager 0xFE 0x10 := by
  decide

theorem test_witness_UpdActsModuloM :
    ((st 0xFF 0xFE).Inv ∧ (st 0xFF 0xFE).hasValue = true) ∧
      (dst 0x15EA 0xFC03 21 []).Inv ∧ (dst 0x15EA 0xFC03 21 []).hasValue = true :=
  ⟨⟨fun _ => trivial, rfl⟩, fun _ => test_within_batch_at_the_edge, rfl⟩

/-- The premise of each row of R54 at a value that meets it (the rows of section 2.2). -/
theorem test_witness_UpdCornerCases :
    ((st 0xFE 0x10).hasValue = true ∧ (st 0xFE 0x10).accs = .eager 0xFE 0x10) ∧
      (0xFE#8).toNat + (0x01#8).toNat = modulus 8 ∧ (0xFE#8).toNat + (0x02#8).toNat = modulus 8 + 1 ∧
      (0xEE#8).toNat + (ocadd 0x10#8 0x01#8).toNat = modulus 8 ∧ (0xEE#8).toNat + (ocadd 0x10#8 0x02#8).toNat = modulus 8 + 1 ∧
      (0xFF#8 = BitVec.allOnes 8) := by decide

theorem test_witness_StreamClosedFormFromAnyPair :
    ((st 0x00 0x05).Inv ∧ (st 0x00 0x05).hasValue = true) ∧
      (dst 0x15EA 0xFC03 21 []).Inv ∧ (dst 0x15EA 0xFC03 21 []).hasValue = true :=
  ⟨⟨fun _ => trivial, rfl⟩, fun _ => test_within_batch_at_the_edge, rfl⟩

theorem test_witness_ReachableRegisterPairs : (0x01#8 ≠ 0) ∧ (0xFF#8 ≠ 0) := by decide

/-- Both registers 0, and neither. -/
theorem test_witness_NormalFormIsKept :
    ((st 0 0).Inv ∧ (st 0 0).NormalForm ∧ step ((st 0 0).setInputs [idleInput]) = .next (st 0 0)) ∧
      (st 0xFF 0x01).Inv ∧ (st 0xFF 0x01).NormalForm ∧ step (st 0xFF 0x01) = .next (st 0xFF 0x01) :=
  ⟨⟨fun _ => trivial, fun _ => by decide, eq_next_of_nextOf (by decide)⟩, fun _ => trivial, fun _ => by decide,
    eq_next_of_nextOf (by decide)⟩

theorem test_witness_QueriesDoNotDisturbTheStream :
    (st 1 1).hasValue = true ∧ [Instr.upd 1, .val, .chk].filter (fun i => !i.isQuery) = [.upd 1] := by decide

theorem test_witness_ZeroAndAllOnesUnitsLookAlike :
    List.Forall₂ (fun u w => u ≤ modulus 8 ∧ w ≤ modulus 8 ∧ u % modulus 8 = w % modulus 8) [0, 1] [255, 1] :=
  .cons (by decide) (.cons (by decide) .nil)

theorem test_witness_ValReportsTheChecksum : (st 0xFF 0xFF).hasValue = true := by decide

theorem test_witness_QueriesHaveNoSideEffect :
    Instr.chk.isQuery = true ∧ Instr.val.isQuery = true ∧ (dst 0x03AA 0x0E31 6 [true]).hasValue = true := by decide

theorem test_witness_ChecksumRange : (st 0xFE 0xFE).hasValue = true ∧ ∀ u ∈ [0, 255], u ≤ modulus (st 0 0).variant.k := by decide

theorem test_witness_RstEmptiesTheRegisters :
    (st 0x5A 0xA5).accs = .eager 0x5A 0xA5 ∧ (dst 0x03AA 0x0E31 6 []).accs = .deferred (hid 0x03AA 0x0E31 6 []) ∧
      noValue.accs = .eager 0x5A#8 0xA5#8 := by decide

theorem test_witness_RstForgetsHistory :
    resetInput.rst = true ∧ rstInput.rst = false ∧ rstInput.cmdValid = true ∧ decode rstInput.cmd = .rst := by decide

theorem test_witness_ChkSolvesForTheCheckValues : (st 0x01 0xFF).hasValue = true := by decide

/-- Both ends: the empty registers, and registers that are not. -/
theorem test_witness_CheckValuesZeroTheChecksum :
    ((st 0 0).Inv ∧ (st 0 0).hasValue = true ∧ (st 0 0).NormalForm ∧ (st 0 0).sum1 = 0) ∧
      (st 0xAD 0x3F).Inv ∧ (st 0xAD 0x3F).hasValue = true ∧ (st 0xAD 0x3F).NormalForm ∧ (st 0xAD 0x3F).sum1 ≠ 0 :=
  ⟨⟨fun _ => trivial, rfl, fun _ => by decide, by decide⟩, fun _ => trivial, rfl, fun _ => by decide, by decide⟩

theorem test_witness_ChkOnTheRawRegisters : (st 0xFF 0x00).hasValue = true := by decide

theorem test_witness_CheckValueLaws :
    ((st 0x01 0x01).Inv ∧ (st 0x01 0x01).hasValue = true) ∧ (0xFD ≤ modulus 8) ∧ (0xFF ≤ modulus 8) :=
  ⟨⟨fun _ => trivial, rfl⟩, by decide, by decide⟩

theorem test_witness_CheckValuesOfTheEmptyState :
    (st 0xFF 0x00).hasValue = true ∧ (st 0xFF 0x00).residue1 = 0 ∧ (st 0xFF 0x00).residue2 = 0 := by decide

theorem test_witness_CalcIsTheOneShotChecksum :
    Pseudo.wellFormed (st 1 1).variant.k (.calc [0xC1, 0xFF]) = true ∧ Pseudo.wellFormed noValue.variant.k (.calc []) = true := by
  decide

theorem test_witness_CheckValuesIsTheOneShotSolver : Pseudo.wellFormed (st 1 1).variant.k (.checkValues [0xC1, 0xFF]) = true := by
  decide

theorem test_witness_ReceiverVerifiesTheStream :
    noValue.variant = (st 1 1).variant ∧ Pseudo.wellFormed (st 1 1).variant.k (.checkValues [0xC1, 0x77]) = true := by decide

theorem test_witness_NewEstablishesTheZeroState :
    (noValue.setInputs [resetInput]).inputs = resetInput :: [] ∧ resetInput.rst = true := ⟨rfl, rfl⟩

theorem test_witness_FoldLoopIsTheClosedForm : modulus 8 < 0x100 ∧ 0xFFFF < 2 ^ (2 * 8) := by decide

theorem test_witness_FoldLaws : 0xFF ≤ modulus Variant.fletcher16.k := by decide

theorem test_witness_AdderLaws :
    (0x01#8 ≠ 0) ∧ (0xFE#8).toNat + (0x01#8).toNat ≤ modulus 8 ∧ modulus 8 < (0xFE#8).toNat + (0x02#8).toNat := by decide

theorem test_witness_ResidueOfASum : (0xFE#8).toNat < modulus 8 ∧ (0x01#8).toNat < modulus 8 := by decide

theorem test_witness_CanonAndNegation :
    (0xFF#8 = BitVec.allOnes 8) ∧ (0xFE#8 ≠ BitVec.allOnes 8) ∧ (0xFE#8).toNat < modulus 8 := by decide

/-- Both directions of the first clause have cases: 0 and `M` are one residue, 1 and `M` are not. -/
theorem test_witness_RepresentationIndependence :
    SameResidue (0x00#8) (0xFF#8) ∧ SameResidue (0x13#8) (0x13#8) ∧ ¬ SameResidue (0x01#8) (0xFF#8) := by
  unfold SameResidue
  decide

/-- Two register pairs with the same residues. -/
theorem test_witness_OnlyResiduesAreObservable :
    ((st 0xFF 0xFE).variant = (st 0x00 0xFE).variant ∧ (st 0xFF 0xFE).residue1 = (st 0x00 0xFE).residue1 ∧
      (st 0xFF 0xFE).residue2 = (st 0x00 0xFE).residue2) ∧
      ((st 0xFF 0xFE).hasValue = true ∧ (st 0xFF 0xFE).Inv ∧ (st 0x00 0xFE).hasValue = true ∧ (st 0x00 0xFE).Inv) ∧
      ∀ i ∈ [Instr.upd 255, .chk], i.wellFormed (st 0 0).variant.k = true :=
  ⟨by decide, ⟨rfl, fun _ => trivial, rfl, fun _ => trivial⟩, by decide⟩

/-- A batch not full and a full one; a hardware reset; each form of the choice list. -/
theorem test_witness_DeferredMachineSteps :
    ((dst 0x00C1 0x00C1 1 []).hasValue = true ∧ (dst 0x00C1 0x00C1 1 []).accs = .deferred (hid 0x00C1 0x00C1 1 []) ∧
      (hid 0x00C1 0x00C1 1 []).cnt ≠ batch21.N ∧ (hid 0x15EA 0xFC03 21 []).cnt = batch21.N) ∧
      ((dst 1 1 1 []).setInputs [resetInput]).inputs = resetInput :: [] ∧
      (hid 1 1 1 [true]).foldChoices = true :: [] ∧ (hid 1 1 1 [false]).foldChoices = false :: [] ∧
      (hid 1 1 1 []).foldChoices = [] := ⟨by decide, rfl, by decide⟩

theorem test_witness_DeferredQueriesFoldFirst :
    (dst 0x03AA 0x0E31 6 []).hasValue = true ∧ (dst 0x03AA 0x0E31 6 []).accs = .deferred (hid 0x03AA 0x0E31 6 []) := by decide

theorem test_witness_BatchBoundIsKept :
    (dst 0x15EA 0xFC03 21 []).Inv ∧ step (dst 0x15EA 0xFC03 21 []) = .next (dst 0x15EA 0xFC03 21 []) :=
  ⟨fun _ => test_within_batch_at_the_edge, eq_next_of_nextOf (by decide)⟩

theorem test_witness_WideAccumulatorsNeverOverflow : (hid 0x15EA 0xFC03 21 []).WithinBatch := test_within_batch_at_the_edge

theorem test_witness_DeferredStepRefinesTheArchitecture : (dst 0x15EA 0xFC03 21 [true]).Inv :=
  fun _ => test_within_batch_at_the_edge

theorem test_witness_BatchBoundIsExact :
    (List.replicate 21 255).length = 21 ∧ (∀ u ∈ List.replicate 21 255, u ≤ modulus 8) ∧
      modulus 8 * (21 + 1) * (21 + 2) / 2 ≤ 2 ^ 16 - 1 := by decide

theorem test_witness_NmaxIsTheLargestSafeBatch :
    1 ≤ 21 ∧ modulus 8 * (21 + 1) * (21 + 2) / 2 ≤ 2 ^ 16 - 1 ∧ (Batch.build 8 16 21).isSome = true := by decide

theorem test_witness_EveryWordIsACommand :
    (0x304#10).toNat % 4 = 0 ∧ (0x295#10).toNat % 4 = 1 ∧ (0x3FE#10).toNat % 4 = 2 ∧ (0x3FF#10).toNat % 4 = 3 := by decide

theorem test_witness_DecodeEncodeRoundTrip : (Instr.upd 0xFFFFFFFF).wellFormed Variant.fletcher64.k = true := by decide

theorem test_witness_AssemblerAndDisassembler :
    255 ≤ modulus Variant.fletcher16.k ∧ modulus Variant.fletcher16.k < 256 ∧ Line.width 16 ∈ [Line.instr .val, .width 16] := by
  decide

theorem test_witness_PseudoInstructionExpansions : (Pseudo.checkValues [0, 255]).wellFormed Variant.fletcher16.k = true := by
  decide

end Sys2Proof.Tests
end

section
/-! Proofs/Step: which command a step runs (O1) and what no step changes (O11). -/

namespace Sys2Proof

@[simp] theorem opField_encode (k : Nat) (i : Instr) : opField (encode k i) = i.op := opField_commandWord _ _

@[simp] theorem dataField_encode (k : Nat) (i : Instr) : dataField (encode k i) = i.data k := dataField_commandWord _ _

/-- No well-formed unit loses a bit in the data field (R21, R33). -/
theorem toNat_ofNat_of_unitFits {k x : Nat} (h : unitFits k x = true) : (BitVec.ofNat k x).toNat = x := by
  have hx : x ≤ modulus k := of_decide_eq_true h
  have hM := modulus_add_one k
  rw [BitVec.toNat_ofNat, Nat.mod_eq_of_lt (by omega)]

/-- The decoder inverts the encoder on commands whose unit fits. -/
theorem decode_encode {k : Nat} {i : Instr} (h : i.wellFormed k = true) : decode (encode k i) = i := by
  unfold decode
  rw [opField_encode, dataField_encode]
  cases i with
  | upd x => exact congrArg Instr.upd (toNat_ofNat_of_unitFits h)
  | val => rfl
  | rst => rfl
  | chk => rfl

namespace Machine

/-- A command word survives a fetch of at least the port's width. -/
theorem ofNat_toNat_mod_of_le {k nbits : Nat} (c : CmdWord k) (h : k + 2 ≤ nbits) :
    BitVec.ofNat (k + 2) (c.toNat % 2 ^ nbits) = c := by
  rw [Nat.mod_eq_of_lt (c.isLt.trans_le (Nat.pow_le_pow_right two_pos h)), BitVec.ofNat_toNat, BitVec.setWidth_eq]

/-- The step after `withFetchWord` runs the command whose word was put on the port. -/
theorem step_withFetchWord (s : State) {i : Instr} {nbits : Nat} (hi : i.wellFormed s.variant.k = true)
    (hn : s.variant.k + 2 ≤ nbits) :
    step (s.withFetchWord nbits (encode s.variant.k i).toNat) =
      exec i (s.foldByChoice.setInputs s.inputs.tail) := by
  rw [step_of_command (s := s.withFetchWord nbits _) rfl rfl rfl, ofNat_toNat_mod_of_le _ hn, decode_encode hi]

/-- The eager implementation has no early fold to choose. -/
theorem foldByChoice_of_eager {s : State} {a b : Word s.variant.k} (h : s.accs = .eager a b) : s.foldByChoice = s :=
  setAccs_of_accs (by rw [h, foldByChoice_eager])

/-! ### The `(A, N)` of an implementation -/

@[simp] theorem foldWhenFull_batch {k : Nat} (h : Hidden k) : h.foldWhenFull.batch = h.batch := by
  obtain ⟨-, e⟩ | ⟨-, e⟩ := foldWhenFull_spec h <;> rw [e]
  exact (foldBoth_spec h).1

@[simp] theorem absorb_batch {k : Nat} (h : Hidden k) (x : Word k) : (h.absorb x).batch = h.batch :=
  foldWhenFull_batch h

@[simp] theorem foldByChoice_batch {k : Nat} (h : Hidden k) : h.foldByChoice.batch = h.batch := by
  obtain e | e := foldByChoice_spec h <;> rw [e]
  exact (foldBoth_spec h).1

@[simp] theorem params_absorb {k : Nat} (a : Accs k) (x : Word k) : (a.absorb x).params = a.params := by
  cases a with
  | eager => rfl
  | deferred h => simp [Accs.params]

@[simp] theorem params_clear {k : Nat} (a : Accs k) : a.clear.params = a.params := by
  cases a <;> rfl

@[simp] theorem params_foldByChoice {k : Nat} (a : Accs k) : a.foldByChoice.params = a.params := by
  cases a with
  | eager => rfl
  | deferred h => simp [Accs.params]

/-- A command keeps the width, the `(A, N)` and the inputs still to come. -/
theorem exec_keeps_build {i : Instr} {s t : State} (h : exec i s = .next t) :
    t.variant = s.variant ∧ t.accs.params = s.accs.params ∧ t.inputs.length = s.inputs.length := by
  obtain ⟨x, -, -, rfl⟩ | ⟨x, -, -, rfl⟩ | ⟨-, -, rfl⟩ | ⟨-, rfl⟩ | ⟨-, -, rfl⟩ := exec_next_cases h <;> simp

end Machine

end Sys2Proof

namespace Sys2Proof.Proofs

open Sys2Proof.Machine

/-- Settles O1: the step rule for a command, and the round trip of the command's word through the port. -/
theorem stepRunsTheDecodedCommand : Obligations.StepRunsTheDecodedCommand :=
  ⟨fun _ _ _ => step_of_command, fun s _ _ => step_withFetchWord s, fun _ _ _ => foldByChoice_of_eager⟩

/-- Settles O11, by the cases of a step; the early fold and each command keep the build. -/
theorem buildNeverChanges : Obligations.BuildNeverChanges := by
  intro s t h
  obtain ⟨hi, rfl⟩ | ⟨p, rest, hi, ⟨-, rfl⟩ | ⟨-, -, he⟩ | ⟨-, -, rfl⟩⟩ := step_next_cases h
  case inr.inr.inl => simpa [hi] using exec_keeps_build he
  all_goals simp [hi]

end Sys2Proof.Proofs
end

section
/-! Proofs/Residues: the accumulators stay within their batch and follow residue arithmetic under UPD, so that units
equal modulo `M` look alike (O22). -/

namespace Sys2Proof.Machine

/-! ### The batch bound (R74) -/

/-- The bound on `acc2` grows by the new bound on `acc1`. -/
theorem batchBound_succ (m n : Nat) : m * (n + 2) * (n + 3) / 2 = m * (n + 1) * (n + 2) / 2 + (n + 2) * m := by
  rw [← Nat.add_mul_div_right _ _ two_pos]
  congr 1
  ring

theorem batchBound_mono (m : Nat) {n n' : Nat} (h : n ≤ n') :
    m * (n + 1) * (n + 2) / 2 ≤ m * (n' + 1) * (n' + 2) / 2 := by
  gcongr

/-- What a batch of at most `N` units can sum to fits the accumulators. -/
theorem batchBound_lt {k : Nat} (b : Batch k) {n : Nat} (h : n ≤ b.N) :
    modulus k * (n + 1) * (n + 2) / 2 < 2 ^ b.A := by
  obtain ⟨-, hb⟩ := batch_bound b
  have := batchBound_mono (modulus k) h
  have := Nat.two_pow_pos b.A
  omega

theorem modulus_lt_accumulator {k : Nat} (b : Batch k) : modulus k < 2 ^ b.A := by
  simpa [Nat.mul_div_cancel] using batchBound_lt b (Nat.zero_le _)

theorem fold_lt_accumulator {v : Variant} (b : Batch v.k) (n : Nat) : fold v.k n < 2 ^ b.A :=
  (fold_le (one_lt_modulus v).le n).trans_lt (modulus_lt_accumulator b)

theorem foldBoth_acc1 {v : Variant} (h : Hidden v.k) : h.foldBoth.acc1.toNat = fold v.k h.acc1.toNat :=
  (BitVec.toNat_ofNat ..).trans (Nat.mod_eq_of_lt (fold_lt_accumulator h.batch _))

theorem foldBoth_acc2 {v : Variant} (h : Hidden v.k) : h.foldBoth.acc2.toNat = fold v.k h.acc2.toNat :=
  (BitVec.toNat_ofNat ..).trans (Nat.mod_eq_of_lt (fold_lt_accumulator h.batch _))

/-- Folded accumulators start a batch, whatever they held before. -/
theorem foldBoth_withinBatch {v : Variant} (h : Hidden v.k) : h.foldBoth.WithinBatch := by
  refine ⟨Nat.zero_le _, ?_, ?_⟩
  · rw [foldBoth_acc1]
    simpa [foldBoth_spec] using fold_le (one_lt_modulus v).le _
  · rw [foldBoth_acc2]
    simpa [foldBoth_spec] using fold_le (one_lt_modulus v).le _

/-- The mandatory fold leaves room for one more unit. -/
theorem foldWhenFull_withinBatch {v : Variant} {h : Hidden v.k} (hw : h.WithinBatch) :
    h.foldWhenFull.WithinBatch ∧ h.foldWhenFull.cnt < h.foldWhenFull.batch.N := by
  obtain ⟨-, e⟩ | ⟨hne, e⟩ := foldWhenFull_spec h <;> rw [e]
  · exact ⟨foldBoth_withinBatch h, (batch_bound h.batch).1⟩
  · exact ⟨hw, lt_of_le_of_ne hw.1 hne⟩

theorem foldWhenFull_acc_mod {v : Variant} (h : Hidden v.k) :
    h.foldWhenFull.acc1.toNat % modulus v.k = h.acc1.toNat % modulus v.k ∧
      h.foldWhenFull.acc2.toNat % modulus v.k = h.acc2.toNat % modulus v.k := by
  obtain ⟨-, e⟩ | ⟨-, e⟩ := foldWhenFull_spec h <;> rw [e]
  · rw [foldBoth_acc1, foldBoth_acc2]
    exact ⟨fold_mod _, fold_mod _⟩
  · exact ⟨rfl, rfl⟩

/-- While the batch has room, the `A`-bit additions of a unit are additions of numbers: nothing wraps. -/
theorem addUnit_acc {k : Nat} {h : Hidden k} (hw : h.WithinBatch) (hlt : h.cnt < h.batch.N) (x : Word k) :
    (h.addUnit x).acc1.toNat = h.acc1.toNat + x.toNat ∧
      (h.addUnit x).acc2.toNat = h.acc2.toNat + (h.acc1.toNat + x.toNat) := by
  obtain ⟨-, h1, h2⟩ := hw
  have hx := toNat_le_modulus x
  have hA := modulus_lt_accumulator h.batch
  have hB : modulus k * (h.cnt + 2) * (h.cnt + 3) / 2 < _ := batchBound_lt h.batch (n := h.cnt + 1) hlt
  have hS := batchBound_succ (modulus k) h.cnt
  have hM : (h.cnt + 2) * modulus k = (h.cnt + 1) * modulus k + modulus k := Nat.succ_mul ..
  have e1 : (h.acc1 + x.setWidth h.batch.A).toNat = h.acc1.toNat + x.toNat := by
    rw [BitVec.toNat_add, BitVec.toNat_setWidth, Nat.add_mod_mod, Nat.mod_eq_of_lt (by omega)]
  refine ⟨e1, ?_⟩
  change (h.acc2 + (h.acc1 + x.setWidth h.batch.A)).toNat = _
  rw [BitVec.toNat_add, e1, Nat.mod_eq_of_lt (by omega)]

theorem addUnit_withinBatch {k : Nat} {h : Hidden k} (hw : h.WithinBatch) (hlt : h.cnt < h.batch.N) (x : Word k) :
    (h.addUnit x).WithinBatch := by
  obtain ⟨e1, e2⟩ := addUnit_acc hw hlt x
  obtain ⟨-, h1, h2⟩ := hw
  have hx := toNat_le_modulus x
  have hS := batchBound_succ (modulus k) h.cnt
  have hM : (h.cnt + 2) * modulus k = (h.cnt + 1) * modulus k + modulus k := Nat.succ_mul ..
  refine ⟨hlt, ?_, ?_⟩
  · rw [e1]
    change _ ≤ (h.cnt + 2) * modulus k
    omega
  · rw [e2]
    change _ ≤ modulus k * (h.cnt + 2) * (h.cnt + 3) / 2
    omega

/-- UPD keeps the accumulators within their batch. -/
theorem absorb_withinBatch {v : Variant} {a : Accs v.k} (ha : a.WithinBatch) (x : Word v.k) :
    (a.absorb x).WithinBatch := by
  cases a with
  | eager => exact withinBatch_eager ..
  | deferred h =>
    obtain ⟨hw, hlt⟩ := foldWhenFull_withinBatch (withinBatch_deferred h |>.1 ha)
    exact addUnit_withinBatch hw hlt x

theorem clear_withinBatch {k : Nat} (a : Accs k) : a.clear.WithinBatch := by
  cases a with
  | eager => exact withinBatch_eager ..
  | deferred h => exact ⟨Nat.zero_le _, Nat.zero_le _, Nat.zero_le _⟩

/-! ### Residues (R14, R52) -/

theorem ocadd_mod {v : Variant} (a b : Word v.k) :
    (ocadd a b).toNat % modulus v.k = (a.toNat + b.toNat) % modulus v.k := by
  rw [ocadd_toNat v.k_pos]
  split
  · rfl
  · exact (Nat.mod_eq_sub_mod (by omega)).symm

/-- UPD adds the unit to the first sum and the new first sum to the second, modulo `M`, on every implementation. -/
theorem absorb_sums_mod {v : Variant} {a : Accs v.k} (ha : a.WithinBatch) (x : Word v.k) :
    (a.absorb x).sum1.toNat % modulus v.k = (a.sum1.toNat + x.toNat) % modulus v.k ∧
      (a.absorb x).sum2.toNat % modulus v.k = (a.sum2.toNat + (a.sum1.toNat + x.toNat)) % modulus v.k := by
  cases a with
  | eager p q =>
    have h1 := ocadd_mod p x
    exact ⟨h1, (ocadd_mod q _).trans (Nat.ModEq.add_left q.toNat h1)⟩
  | deferred h =>
    obtain ⟨hw, hlt⟩ := foldWhenFull_withinBatch (withinBatch_deferred h |>.1 ha)
    obtain ⟨e1, e2⟩ := addUnit_acc hw hlt x
    obtain ⟨m1, m2⟩ := foldWhenFull_acc_mod h
    simp only [absorb_deferred, deferred_sum1, deferred_sum2, hidden_sum1_toNat, hidden_sum2_toNat, Hidden.absorb,
      fold_mod, e1, e2]
    have f1 : fold v.k h.acc1.toNat ≡ h.acc1.toNat [MOD modulus v.k] := fold_mod _
    have f2 : fold v.k h.acc2.toNat ≡ h.acc2.toNat [MOD modulus v.k] := fold_mod _
    have s1 := (Nat.ModEq.trans m1 f1.symm).add_right x.toNat
    exact ⟨s1, (Nat.ModEq.trans m2 f2.symm).add s1⟩

/-- Equal residues as numbers are equal reported words. -/
theorem canon_eq_canon_iff {v : Variant} (a b : Word v.k) :
    canon a = canon b ↔ a.toNat ≡ b.toNat [MOD modulus v.k] := by
  rw [← BitVec.toNat_inj, canon_toNat_mod (one_lt_modulus v).le, canon_toNat_mod (one_lt_modulus v).le]
  rfl

/-- Accumulators that present the same residues, bit patterns and implementations aside (R14). -/
def Accs.SameResidues {k : Nat} (a b : Accs k) : Prop := SameResidue a.sum1 b.sum1 ∧ SameResidue a.sum2 b.sum2

theorem Accs.SameResidues.valueRsp_eq {k : Nat} {a b : Accs k} (h : a.SameResidues b) : a.valueRsp = b.valueRsp := by
  obtain ⟨h1, h2⟩ := h
  rw [Accs.valueRsp, Accs.valueRsp, h1, h2]

theorem Accs.SameResidues.checkRsp_eq {k : Nat} {a b : Accs k} (h : a.SameResidues b) : a.checkRsp = b.checkRsp := by
  obtain ⟨h1, h2⟩ := h
  rw [Accs.checkRsp, Accs.checkRsp, h1, h2]

/-- UPD cannot tell accumulators of the same residues apart, nor units equal modulo `M`. -/
theorem Accs.SameResidues.absorb {v : Variant} {a b : Accs v.k} (h : a.SameResidues b) (ha : a.WithinBatch)
    (hb : b.WithinBatch) {x y : Word v.k} (hxy : x.toNat ≡ y.toNat [MOD modulus v.k]) :
    (a.absorb x).SameResidues (b.absorb y) := by
  obtain ⟨h1, h2⟩ := h
  obtain ⟨a1, a2⟩ := absorb_sums_mod ha x
  obtain ⟨b1, b2⟩ := absorb_sums_mod hb y
  have e1 := ((canon_eq_canon_iff _ _).1 h1).add hxy
  have e2 := ((canon_eq_canon_iff _ _).1 h2).add e1
  exact ⟨(canon_eq_canon_iff _ _).2 ((Nat.ModEq.trans a1 e1).trans b1.symm),
    (canon_eq_canon_iff _ _).2 ((Nat.ModEq.trans a2 e2).trans b2.symm)⟩

/-! ### Streams of units (R66 to R68) -/

/-- The accumulators after a stream of UPD. -/
def Accs.absorbAll {k : Nat} (a : Accs k) (us : List Nat) : Accs k :=
  us.foldl (fun b u => b.absorb (unitOperand k u)) a

@[simp] theorem absorbAll_cons {k : Nat} (a : Accs k) (u : Nat) (us : List Nat) :
    a.absorbAll (u :: us) = (a.absorb (unitOperand k u)).absorbAll us := rfl

/-- The state after a stream of UPD: the units absorbed, no response on the port. -/
abbrev State.afterStream (s : State) (us : List Nat) : State := (s.setAccs (s.accs.absorbAll us)).silent

/-- A stream gives no response and changes the accumulators alone. -/
theorem run_updAll (us : List Nat) {s : State} (hv : s.hasValue = true) :
    run (updAll us) s.silent = .next (s.afterStream us, []) := by
  induction us generalizing s with
  | nil => rfl
  | cons u us ih =>
    exact run_cons_next (updAll us) (exec_upd_of_value (s := s.silent) u hv)
      (ih (s := s.setAccs (s.accs.absorb (unitOperand s.variant.k u))) hv)

/-- A one-shot sequence (R67, R68) answers with its query on the stream absorbed from the empty state. -/
theorem run_oneShot {i : Instr} {s : State} {us : List Nat} {r : Rsp s.variant.k}
    (h : exec i (s.empty.afterStream us) = .next ((s.empty.afterStream us).respond r)) :
    run (.rst :: (updAll us ++ [i])) s =
      .next ((s.empty.afterStream us).respond r, [⟨r.hi.toNat, r.lo.toNat⟩]) := by
  refine run_cons_next _ (exec_rst s) ?_
  rw [run_append_next [i] (run_updAll us (s := s.empty) rfl), run_cons_next [] h (run_nil _)]
  rfl

/-- Streams of units equal modulo `M`, position by position, lead to the same residues. -/
theorem Accs.SameResidues.absorbAll {v : Variant} {us ws : List Nat}
    (h : List.Forall₂ (fun u w => u ≤ modulus v.k ∧ w ≤ modulus v.k ∧ u % modulus v.k = w % modulus v.k) us ws)
    {a b : Accs v.k} (hab : a.SameResidues b) (ha : a.WithinBatch) (hb : b.WithinBatch) :
    (a.absorbAll us).SameResidues (b.absorbAll ws) := by
  induction h generalizing a b with
  | nil => exact hab
  | @cons u w us ws huw _ ih =>
    obtain ⟨hu, hw, hmod⟩ := huw
    have hxy : (unitOperand v.k u).toNat ≡ (unitOperand v.k w).toNat [MOD modulus v.k] := by
      rw [unitOperand, unitOperand, toNat_ofNat_of_unitFits (decide_eq_true hu),
        toNat_ofNat_of_unitFits (decide_eq_true hw)]
      exact hmod
    exact ih (hab.absorb ha hb hxy) (absorb_withinBatch ha _) (absorb_withinBatch hb _)

end Sys2Proof.Machine

namespace Sys2Proof.Proofs

open Sys2Proof.Machine

/-- Settles O22: both streams start from the cleared accumulators and end with the same residues, on which the two
responses depend. -/
theorem zeroAndAllOnesUnitsLookAlike : Obligations.ZeroAndAllOnesUnitsLookAlike := by
  intro s us ws h
  have hres : (s.empty.afterStream us).accs.SameResidues (s.empty.afterStream ws).accs :=
    Accs.SameResidues.absorbAll h ⟨rfl, rfl⟩ (clear_withinBatch _) (clear_withinBatch _)
  have hval := exec_val_of_value (s := s.empty.afterStream ws) rfl
  have hchk := exec_chk_of_value (s := s.empty.afterStream ws) rfl
  rw [← hres.valueRsp_eq] at hval
  rw [← hres.checkRsp_eq] at hchk
  exact ⟨⟨_, _, _, run_oneShot (exec_val_of_value rfl), run_oneShot hval⟩,
    ⟨_, _, _, run_oneShot (exec_chk_of_value rfl), run_oneShot hchk⟩⟩

end Sys2Proof.Proofs
end

section
/-! Proofs/Registers: the registers that any implementation presents follow the end-around-carry adder, so that every
step keeps the normal form (O19); what each command changes (O12). -/

namespace Sys2Proof.Machine

/-! ### The adder and the fold (R41 to R43) -/

/-- Folding a summand early does not change the fold of the sum (R41 law 6). -/
theorem fold_fold_add {v : Variant} (u x : Nat) : fold v.k (fold v.k u + x) = fold v.k (u + x) := by
  refine fold_unique (fold_le (one_lt_modulus v).le _) ?_ (fold_eq_zero.trans ?_)
  · rw [fold_mod]
    exact Nat.ModEq.add_right x (fold_mod u)
  · have := fold_eq_zero (k := v.k) (n := u)
    omega

theorem fold_add_fold {v : Variant} (u x : Nat) : fold v.k (u + fold v.k x) = fold v.k (u + x) := by
  rw [Nat.add_comm, fold_fold_add, Nat.add_comm]

theorem fold_fold {v : Variant} (u : Nat) : fold v.k (fold v.k u) = fold v.k u := fold_fold_add u 0

theorem ocadd_toNat_eq_fold {v : Variant} (a b : Word v.k) : (ocadd a b).toNat = fold v.k (a.toNat + b.toNat) := by
  refine fold_unique (toNat_le_modulus _) (ocadd_mod a b) ?_
  rw [ocadd_toNat v.k_pos]
  split <;> omega

theorem ocadd_eq_zero_iff {v : Variant} (a b : Word v.k) : ocadd a b = 0 ↔ a = 0 ∧ b = 0 := by
  simp only [← BitVec.toNat_inj, ocadd_toNat_eq_fold]
  exact fold_eq_zero.trans Nat.add_eq_zero_iff

/-! ### The registers under the state's operations (R18, R76) -/

@[simp] theorem clear_sum1 {k : Nat} (a : Accs k) : a.clear.sum1 = 0 := by
  cases a <;> rfl

@[simp] theorem clear_sum2 {k : Nat} (a : Accs k) : a.clear.sum2 = 0 := by
  cases a <;> rfl

theorem foldBoth_sums {v : Variant} (h : Hidden v.k) : h.foldBoth.sum1 = h.sum1 ∧ h.foldBoth.sum2 = h.sum2 := by
  simp only [← BitVec.toNat_inj, hidden_sum1_toNat, hidden_sum2_toNat, foldBoth_acc1, foldBoth_acc2, fold_fold, and_self]

theorem foldWhenFull_sums {v : Variant} (h : Hidden v.k) :
    h.foldWhenFull.sum1 = h.sum1 ∧ h.foldWhenFull.sum2 = h.sum2 := by
  obtain ⟨-, e⟩ | ⟨-, e⟩ := foldWhenFull_spec h <;> rw [e]
  · exact foldBoth_sums h
  · exact ⟨rfl, rfl⟩

/-- An early fold shows in neither register. -/
theorem foldByChoice_sums {v : Variant} (a : Accs v.k) :
    a.foldByChoice.sum1 = a.sum1 ∧ a.foldByChoice.sum2 = a.sum2 := by
  cases a with
  | eager => exact ⟨rfl, rfl⟩
  | deferred h =>
    rw [foldByChoice_deferred]
    obtain e | e := foldByChoice_spec h <;> rw [e]
    · exact ⟨rfl, rfl⟩
    · exact foldBoth_sums h

theorem foldByChoice_withinBatch {v : Variant} {a : Accs v.k} (ha : a.WithinBatch) : a.foldByChoice.WithinBatch := by
  cases a with
  | eager => exact withinBatch_eager ..
  | deferred h =>
    rw [foldByChoice_deferred]
    obtain e | e := foldByChoice_spec h <;> rw [e]
    · exact ha
    · exact foldBoth_withinBatch h

/-- While the batch has room, a unit's plain additions are the adder's on the registers. -/
theorem addUnit_sums {v : Variant} {h : Hidden v.k} (hw : h.WithinBatch) (hlt : h.cnt < h.batch.N) (x : Word v.k) :
    (h.addUnit x).sum1 = ocadd h.sum1 x ∧ (h.addUnit x).sum2 = ocadd h.sum2 (ocadd h.sum1 x) := by
  obtain ⟨e1, e2⟩ := addUnit_acc hw hlt x
  simp only [← BitVec.toNat_inj, ocadd_toNat_eq_fold, hidden_sum1_toNat, hidden_sum2_toNat, e1, e2, fold_fold_add,
    fold_add_fold, and_self]

/-- UPD on any implementation is R50 on the registers it presents. -/
theorem absorb_sums {v : Variant} {a : Accs v.k} (ha : a.WithinBatch) (x : Word v.k) :
    (a.absorb x).sum1 = ocadd a.sum1 x ∧ (a.absorb x).sum2 = ocadd a.sum2 (ocadd a.sum1 x) := by
  cases a with
  | eager => exact ⟨rfl, rfl⟩
  | deferred h =>
    obtain ⟨hw, hlt⟩ := foldWhenFull_withinBatch (withinBatch_deferred h |>.1 ha)
    obtain ⟨e1, e2⟩ := foldWhenFull_sums h
    have h' := addUnit_sums hw hlt x
    rwa [e1, e2] at h'

/-! ### The batch bound of a state (R74) -/

theorem foldByChoice_inv {s : State} (hi : s.Inv) : s.foldByChoice.Inv := fun hv => foldByChoice_withinBatch (hi hv)

theorem exec_inv {i : Instr} {s t : State} (hi : s.Inv) (h : exec i s = .next t) : t.Inv := by
  obtain ⟨x, -, hv, rfl⟩ | ⟨x, -, -, rfl⟩ | ⟨-, -, rfl⟩ | ⟨-, rfl⟩ | ⟨-, -, rfl⟩ := exec_next_cases h
  · exact fun _ => absorb_withinBatch (hi hv) _
  · exact hi
  · exact hi
  · exact fun _ => clear_withinBatch s.accs
  · exact hi

/-! ### The normal form (R13, R53) -/

/-- After a unit the first register is 0 only if it was and the unit is; the second is 0 only if it was and the new first
one is. So both are 0 or neither is. -/
theorem absorb_normalForm {v : Variant} {a : Accs v.k} (ha : a.WithinBatch) (hn : a.sum1 = 0 ↔ a.sum2 = 0)
    (x : Word v.k) : (a.absorb x).sum1 = 0 ↔ (a.absorb x).sum2 = 0 := by
  obtain ⟨e1, e2⟩ := absorb_sums ha x
  rw [e1, e2, ocadd_eq_zero_iff a.sum2, ocadd_eq_zero_iff, ← hn]
  tauto

theorem empty_normalForm (s : State) : s.empty.NormalForm := fun _ => by
  simp [State.sum1, State.sum2]

theorem foldByChoice_normalForm {s : State} (hn : s.NormalForm) : s.foldByChoice.NormalForm := by
  obtain ⟨e1, e2⟩ := foldByChoice_sums s.accs
  intro hv
  simpa only [State.sum1, State.sum2, foldByChoice_accs, e1, e2] using hn hv

theorem exec_normalForm {i : Instr} {s t : State} (hi : s.Inv) (hn : s.NormalForm) (h : exec i s = .next t) :
    t.NormalForm := by
  obtain ⟨x, -, hv, rfl⟩ | ⟨x, -, -, rfl⟩ | ⟨-, -, rfl⟩ | ⟨-, rfl⟩ | ⟨-, -, rfl⟩ := exec_next_cases h
  · exact fun _ => absorb_normalForm (hi hv) (hn hv) _
  · exact hn
  · exact hn
  · exact empty_normalForm s
  · exact hn

/-! ### What the build fixed (R5) -/

theorem foldWhenFull_foldChoices {k : Nat} (h : Hidden k) : h.foldWhenFull.foldChoices = h.foldChoices := by
  obtain ⟨-, e⟩ | ⟨-, e⟩ := foldWhenFull_spec h <;> rw [e]
  exact (foldBoth_spec h).2.1

theorem Accs.SameBuild.refl {k : Nat} (a : Accs k) : a.SameBuild a := by
  cases a with
  | eager => trivial
  | deferred => exact ⟨rfl, rfl⟩

theorem Accs.SameBuild.absorb {k : Nat} (a : Accs k) (x : Word k) : a.SameBuild (a.absorb x) := by
  cases a with
  | eager => trivial
  | deferred h => exact ⟨(absorb_batch h x).symm, (foldWhenFull_foldChoices h).symm⟩

theorem Accs.SameBuild.clear {k : Nat} (a : Accs k) : a.SameBuild a.clear := by
  cases a with
  | eager => trivial
  | deferred => exact ⟨rfl, rfl⟩

end Sys2Proof.Machine

namespace Sys2Proof.Proofs

open Sys2Proof.Machine

/-- Settles O19, by the cases of a step: the early fold shows in no register, a reset empties both, and a command keeps
the normal form. -/
theorem normalFormIsKept : Obligations.NormalFormIsKept := by
  intro s t hi hn h
  have hi' := foldByChoice_inv hi
  have hn' := foldByChoice_normalForm hn
  obtain ⟨-, rfl⟩ | ⟨p, rest, -, ⟨-, rfl⟩ | ⟨-, -, he⟩ | ⟨-, -, rfl⟩⟩ := step_next_cases h
  · exact hn'
  · exact empty_normalForm _
  · exact exec_normalForm (s := s.foldByChoice.setInputs rest) hi' hn' he
  · exact hn'

/-- Settles O12, by the equation of each command; UPD before the first reset leaves the accumulators too. -/
theorem commandsChangeOnlyTheirOwn : Obligations.CommandsChangeOnlyTheirOwn := by
  intro s t
  refine ⟨fun x h => ?_, fun h => ?_, fun h => ?_, fun h => ?_⟩
  · obtain ⟨y, -, -, rfl⟩ | ⟨y, -, -, rfl⟩ | ⟨⟨⟩, -⟩ | ⟨⟨⟩, -⟩ | ⟨⟨⟩, -⟩ := exec_next_cases h
    · exact ⟨_, rfl, .absorb ..⟩
    · exact ⟨s.accs, rfl, .refl _⟩
  · obtain ⟨_, ⟨⟩, -⟩ | ⟨_, ⟨⟩, -⟩ | ⟨-, -, rfl⟩ | ⟨⟨⟩, -⟩ | ⟨⟨⟩, -⟩ := exec_next_cases h
    exact ⟨_, rfl⟩
  · cases h
    exact ⟨_, rfl, .clear _⟩
  · obtain ⟨_, ⟨⟩, -⟩ | ⟨_, ⟨⟩, -⟩ | ⟨⟨⟩, -⟩ | ⟨⟨⟩, -⟩ | ⟨-, -, rfl⟩ := exec_next_cases h
    exact ⟨_, rfl⟩

end Sys2Proof.Proofs
end

section
/-! Proofs/Observations: the responses and the residues after a command are functions of the residues before it, the
ones of R14's residue model (O44). -/

namespace Sys2Proof

/-- The command of the word an assembler writes: UPD carries the unit as the data field holds it (log 9). -/
def Instr.onPort (k : Nat) (i : Instr) : Instr := decode (encode k i)

theorem onPort_upd (k x : Nat) : (Instr.upd x).onPort k = .upd (Machine.unitOperand k x).toNat := by
  simp [Instr.onPort, decode, Instr.op, Instr.data, Machine.unitOperand]

theorem onPort_of_wellFormed {k : Nat} {i : Instr} (h : i.wellFormed k = true) : i.onPort k = i := decode_encode h

end Sys2Proof

namespace Sys2Proof.Machine

/-! ### Responses as numbers (R36, R60) -/

theorem valueWord_hi {k : Nat} (a b : Word k) : (Rsp.value (valueWord a b)).hi = b := by
  ext i hi
  have h1 : k + i < 2 * k := by omega
  simp [Rsp.hi, valueWord, hi, h1]

theorem valueWord_lo {k : Nat} (a b : Word k) : (Rsp.value (valueWord a b)).lo = a := by
  ext i hi
  have h1 : i < 2 * k := by omega
  simp [Rsp.lo, valueWord, hi, h1]

theorem residueCheck_lt {m : Nat} (hm : 0 < m) (t : Nat) : residueCheck m t < m := by
  unfold residueCheck
  split <;> omega

/-- A check value of two residues is the residue model's. -/
theorem checkValue_modadd_toNat {k : Nat} {a b : Word k} (ha : a.toNat < modulus k) (hb : b.toNat < modulus k) :
    (checkValue (modadd a b)).toNat = residueCheck (modulus k) (a.toNat + b.toNat) := by
  rw [checkValue_toNat, modadd_toNat a b ha hb, residueCheck]

/-! ### One command on the residues (R14) -/

/-- The pair of residues `(r1, r2)`. -/
def State.residues (s : State) : Nat × Nat := (s.residue1, s.residue2)

/-- The residues after one command of the residue model that `residueRun` runs. -/
def residueNext (m : Nat) (r : Nat × Nat) : Instr → Nat × Nat
  | .upd x => residueUpdate m r x
  | .val => r
  | .rst => (0, 0)
  | .chk => r

theorem residueRun_cons (m : Nat) (r : Nat × Nat) (i : Instr) (is : List Instr) :
    residueRun m r (i :: is) = residueRun m r [i] ++ residueRun m (residueNext m r i) is := by
  cases i <;> rfl

theorem residues_eq (s : State) :
    s.residues = (s.accs.sum1.toNat % modulus s.variant.k, s.accs.sum2.toNat % modulus s.variant.k) :=
  Prod.ext (canon_toNat_mod (one_lt_modulus _).le _) (canon_toNat_mod (one_lt_modulus _).le _)

theorem canon_lt {v : Variant} (a : Word v.k) : (canon a).toNat < modulus v.k := by
  rw [canon_toNat_mod (one_lt_modulus v).le]
  exact Nat.mod_lt _ (one_lt_modulus v).le

theorem respond_response (s : State) (r : Rsp s.variant.k) :
    (s.respond r).response = some ⟨r.hi.toNat, r.lo.toNat⟩ := rfl

theorem valueRsp_hi_lo {k : Nat} (a : Accs k) : a.valueRsp.hi = canon a.sum2 ∧ a.valueRsp.lo = canon a.sum1 :=
  ⟨valueWord_hi _ _, valueWord_lo _ _⟩

theorem checkRsp_hi_lo {v : Variant} (a : Accs v.k) :
    a.checkRsp.lo.toNat = residueCheck (modulus v.k) ((canon a.sum1).toNat + (canon a.sum2).toNat) ∧
      a.checkRsp.hi.toNat = residueCheck (modulus v.k) ((canon a.sum1).toNat + a.checkRsp.lo.toNat) := by
  have h0 : a.checkRsp.lo.toNat = _ := checkValue_modadd_toNat (canon_lt a.sum1) (canon_lt a.sum2)
  refine ⟨h0, checkValue_modadd_toNat (canon_lt a.sum1) ?_⟩
  exact h0 ▸ residueCheck_lt (one_lt_modulus v).le _

/-- A UPD acts on the residues as the source's update line (R52). -/
theorem residues_absorb {s : State} (ha : s.accs.WithinBatch) (x : Word s.variant.k) :
    (s.setAccs (s.accs.absorb x)).residues = residueUpdate (modulus s.variant.k) s.residues x.toNat := by
  obtain ⟨e1, e2⟩ := absorb_sums_mod ha x
  simp only [residues_eq, residueUpdate, setAccs_variant, e1, e2, Nat.mod_add_mod, Nat.add_mod_mod]

theorem residues_empty (s : State) : s.empty.residues = (0, 0) := by
  simp [residues_eq]

/-- A command on registers that hold values acts on the residues and responds as the residue model does. -/
theorem exec_residues (i : Instr) {s : State} (hv : s.hasValue = true) (hi : s.Inv) :
    ∃ t, exec i s = .next t ∧ t.hasValue = true ∧
      t.residues = residueNext (modulus s.variant.k) s.residues (i.onPort s.variant.k) ∧
      t.response.toList = residueRun (modulus s.variant.k) s.residues [i.onPort s.variant.k] := by
  cases i with
  | upd x =>
    refine ⟨_, exec_upd_of_value x hv, hv, ?_, ?_⟩ <;> rw [onPort_upd]
    · exact residues_absorb (hi hv) _
    · rfl
  | val =>
    obtain ⟨h0, h1⟩ := valueRsp_hi_lo s.accs
    refine ⟨_, exec_val_of_value hv, hv, ?_, ?_⟩ <;> rw [onPort_of_wellFormed rfl]
    · rfl
    · rw [respond_response, h0, h1]
      rfl
  | rst =>
    refine ⟨_, exec_rst s, rfl, ?_, ?_⟩ <;> rw [onPort_of_wellFormed rfl]
    · exact residues_empty s
    · rfl
  | chk =>
    obtain ⟨h0, h1⟩ := checkRsp_hi_lo s.accs
    rw [h0] at h1
    refine ⟨_, exec_chk_of_value hv, hv, ?_, ?_⟩ <;> rw [onPort_of_wellFormed rfl]
    · rfl
    · rw [respond_response, h0, h1]
      rfl

/-- A command list acts on the residues and responds as the residue model does. -/
theorem run_residues (is : List Instr) {s : State} (hv : s.hasValue = true) (hi : s.Inv) :
    ∃ t, run is s = .next (t, residueRun (modulus s.variant.k) s.residues (is.map (Instr.onPort s.variant.k))) ∧
      t.residues = (is.map (Instr.onPort s.variant.k)).foldl (residueNext (modulus s.variant.k)) s.residues := by
  induction is generalizing s with
  | nil => exact ⟨s, rfl, rfl⟩
  | cons i is ih =>
    obtain ⟨u, hu, hv', hres, hrsp⟩ := exec_residues i hv hi
    obtain ⟨t, ht, hfin⟩ := ih hv' (exec_inv hi hu)
    obtain ⟨hvar, -, -⟩ := exec_keeps_build hu
    rw [hvar, hres] at ht hfin
    refine ⟨t, ?_, hfin⟩
    rw [run_cons_next is hu ht, hrsp, List.map_cons, ← residueRun_cons]

end Sys2Proof.Machine

namespace Sys2Proof.Proofs

open Sys2Proof.Machine

/-- Settles O44: what a command list responds and the residues it ends with are functions of the width and the residues
it starts from; on well-formed commands they are the residue model's. -/
theorem onlyResiduesAreObservable : Obligations.OnlyResiduesAreObservable := by
  refine ⟨fun s s' is hvar hv hv' hi hi' h1 h2 => ?_, fun s is hv hi hwf => ?_⟩
  · obtain ⟨t, ht, hfin⟩ := run_residues is hv hi
    obtain ⟨t', ht', hfin'⟩ := run_residues is hv' hi'
    have hres : s.residues = s'.residues := Prod.ext h1 h2
    rw [← hvar, ← hres] at ht' hfin'
    have hend : t.residues = t'.residues := hfin.trans hfin'.symm
    exact ⟨t, t', _, ht, ht', congrArg Prod.fst hend, congrArg Prod.snd hend⟩
  · obtain ⟨t, ht, -⟩ := run_residues is hv hi
    have hport : is.map (Instr.onPort s.variant.k) = is :=
      (List.map_congr_left fun i h => onPort_of_wellFormed (hwf i h)).trans (List.map_id is)
    rw [hport] at ht
    exact ⟨t, ht⟩

end Sys2Proof.Proofs
end


section
/-! Proofs/PortRun: on the port of an eager machine a command list runs as the left fold of its commands (O5). -/

namespace Sys2Proof.Machine

/-! ### One more step, one more command -/

theorem runSteps_succ_next {s t : State} (n : Nat) (h : step s = .next t) :
    runSteps (n + 1) s = mapNext (fun p => (p.1, t.response.toList ++ p.2)) (runSteps n t) := by
  rw [runSteps, h]
  cases e : runSteps n t <;> simp [e, mapNext]

theorem runSteps_succ_refused {s : State} {r : Refusal} (n : Nat) (h : step s = .refused r) :
    runSteps (n + 1) s = .refused r := by
  rw [runSteps, h]

/-- The left fold, one command further, whatever the rest of the list ends in. -/
theorem run_cons_of_next {i : Instr} {s t : State} (is : List Instr) (h : exec i s = .next t) :
    run (i :: is) s = mapNext (fun p => (p.1, t.response.toList ++ p.2)) (run is t) := by
  rw [run, h]
  cases e : run is t <;> simp [e, mapNext]

theorem run_cons_refused {i : Instr} {s : State} {r : Refusal} (is : List Instr) (h : exec i s = .refused r) :
    run (i :: is) s = .refused r := by
  rw [run, h]

/-! ### Presenting commands (R26, R30) -/

@[simp] theorem present_nil (s : State) : s.present [] = s := setInputs_of_inputs (List.append_nil _).symm

/-- The host reads the same response, whatever it presents next. -/
@[simp] theorem present_response (s : State) (is : List Instr) : (s.present is).response = s.response := rfl

/-- A command reads nothing of what the host presents, and leaves it there. -/
theorem exec_present (i : Instr) (s : State) (is : List Instr) :
    exec i (s.present is) = mapNext (fun t => t.present is) (exec i s) := by
  cases i with
  | rst => rfl
  | upd x =>
    cases hv : s.hasValue with
    | true => rw [exec_upd_of_value x hv, exec_upd_of_value (s := s.present is) x hv]; rfl
    | false => rw [exec_upd_of_no_value x hv, exec_upd_of_no_value (s := s.present is) x hv]; rfl
  | val =>
    cases hv : s.hasValue with
    | true => rw [exec_val_of_value hv, exec_val_of_value (s := s.present is) hv]; rfl
    | false => rw [exec_val_of_no_value hv, exec_val_of_no_value (s := s.present is) hv]; rfl
  | chk =>
    cases hv : s.hasValue with
    | true => rw [exec_chk_of_value hv, exec_chk_of_value (s := s.present is) hv]; rfl
    | false => rw [exec_chk_of_no_value hv, exec_chk_of_no_value (s := s.present is) hv]; rfl

/-- The registers themselves are the implementation without a pair `(A, N)`. -/
theorem params_eq_none_iff {k : Nat} {a : Accs k} : a.params = none ↔ ∃ x y, a = .eager x y := by
  cases a <;> simp [Accs.params]

/-- With nothing else on the port, a step of an eager machine runs the first command presented. -/
theorem step_present_cons {s : State} {i : Instr} (is : List Instr) (hp : s.accs.params = none) (hn : s.inputs = [])
    (hi : i.wellFormed s.variant.k = true) :
    step (s.present (i :: is)) = mapNext (fun t => t.present is) (exec i s) := by
  obtain ⟨a, b, hab⟩ := params_eq_none_iff.mp hp
  have hin : (s.present (i :: is)).inputs = commandInput s.variant.k i :: is.map (commandInput s.variant.k) := by
    simp [State.present, hn]
  have hrest : s.foldByChoice.setInputs (is.map (commandInput s.variant.k)) = s.present is := by
    simp [State.present, hn, hab]
  have hdec : decode (commandInput s.variant.k i).cmd = i := decode_encode hi
  calc
    step (s.present (i :: is))
    _ = exec (decode (commandInput s.variant.k i).cmd)
          (s.foldByChoice.setInputs (is.map (commandInput s.variant.k))) := step_of_command hin rfl rfl
    _ = exec i (s.present is) := by rw [hdec, hrest]
    _ = mapNext (fun t => t.present is) (exec i s) := exec_present i s is

/-- Presented on the port of an eager machine, a well-formed command list runs as the left fold of its commands. -/
theorem runSteps_present {s : State} {is : List Instr} (hp : s.accs.params = none) (hn : s.inputs = [])
    (hwf : ∀ i ∈ is, i.wellFormed s.variant.k = true) : runSteps is.length (s.present is) = run is s := by
  induction is generalizing s with
  | nil => simp [runSteps]
  | cons i is ih =>
    obtain ⟨hi, his⟩ := List.forall_mem_cons.mp hwf
    have hstep := step_present_cons is hp hn hi
    cases he : exec i s with
    | fault r => cases r
    | refused r =>
      rw [he] at hstep
      rw [List.length_cons, runSteps_succ_refused _ hstep, run_cons_refused is he]
    | next t =>
      obtain ⟨hvar, hpar, hlen⟩ := exec_keeps_build he
      rw [he] at hstep
      rw [List.length_cons, runSteps_succ_next _ hstep, run_cons_of_next is he, present_response,
        ih (hpar.trans hp) (List.eq_nil_of_length_eq_zero (by rw [hlen, hn]; rfl)) (hvar ▸ his)]

theorem core_run_succ_next {s t : core.State} (n : Nat) (h : core.step s = .next t) :
    core.run (n + 1) s = core.run n t := by
  rw [Host.Core.run, h]

theorem core_run_succ_refused {s : core.State} {r : core.Refusal} (n : Nat) (h : core.step s = .refused r) :
    core.run (n + 1) s = .refused r := by
  rw [Host.Core.run, h]

/-- The host's run is the port run without its responses. -/
theorem core_run_eq_runSteps (n : Nat) (s : State) : core.run n s = mapNext Prod.fst (runSteps n s) := by
  induction n generalizing s with
  | zero => rfl
  | succ n ih =>
    cases h : step s with
    | fault r => cases r
    | refused r => rw [runSteps_succ_refused n h, core_run_succ_refused n h]; rfl
    | next t =>
      rw [runSteps_succ_next n h, core_run_succ_next n h, ih t]
      cases runSteps n t <;> rfl

end Sys2Proof.Machine

namespace Sys2Proof.Proofs

open Sys2Proof.Machine

/-- Settles O5, by induction on the command list and, for the host's run, on the number of steps. -/
theorem portRunIsTheLeftFold : Obligations.PortRunIsTheLeftFold :=
  ⟨fun _ _ a b hab hn hwf => runSteps_present (params_eq_none_iff.mpr ⟨a, b, hab⟩) hn hwf, core_run_eq_runSteps⟩

end Sys2Proof.Proofs
end

section
/-! Proofs/Encoding: the command word and its text: decoding and encoding (O55, O56, O57), the assembler and the
disassembler (O58, O59), and which steps respond or hold the registers (O3, O4). -/

namespace Sys2Proof

/-! ### The fields of a command word as numbers (R31) -/

theorem opField_toNat {k : Nat} (cmd : CmdWord k) : (opField cmd).toNat = cmd.toNat % 4 := by
  simp [opField]

theorem dataField_toNat {k : Nat} (cmd : CmdWord k) : (dataField cmd).toNat = cmd.toNat / 4 := by
  have hlt : cmd.toNat / 4 < 2 ^ k := by
    have := cmd.isLt
    rw [pow_add] at this
    omega
  simp [dataField, Nat.shiftRight_eq_div_pow, Nat.mod_eq_of_lt hlt]

theorem commandWord_toNat {k : Nat} (data : Word k) (op : BitVec 2) :
    (commandWord data op).toNat = 4 * data.toNat + op.toNat := by
  rw [commandWord, BitVec.toNat_append, ← Nat.shiftLeft_add_eq_or_of_lt op.isLt, Nat.shiftLeft_eq]
  omega

theorem encode_toNat (k : Nat) (i : Instr) : (encode k i).toNat = 4 * (i.data k).toNat + i.op.toNat :=
  commandWord_toNat _ _

/-! ### Decoding by the operation code (R32 to R34) -/

section
variable {k : Nat} {cmd : CmdWord k}

theorem decode_of_opField_upd (h : opField cmd = 0b00#2) : decode cmd = .upd (dataField cmd).toNat := by
  simp [decode, h]

theorem decode_of_opField_val (h : opField cmd = 0b01#2) : decode cmd = .val := by simp [decode, h]

theorem decode_of_opField_rst (h : opField cmd = 0b10#2) : decode cmd = .rst := by simp [decode, h]

theorem decode_of_opField_chk (h : opField cmd = 0b11#2) : decode cmd = .chk := by simp [decode, h]

theorem opField_eq_of_mod {n : Nat} (hn : n < 4) (h : cmd.toNat % 4 = n) : opField cmd = BitVec.ofNat 2 n :=
  BitVec.eq_of_toNat_eq (by rw [opField_toNat, h, BitVec.toNat_ofNat, Nat.mod_eq_of_lt hn])

theorem decode_of_mod_zero (h : cmd.toNat % 4 = 0) : decode cmd = .upd (cmd.toNat / 4) := by
  rw [decode_of_opField_upd (opField_eq_of_mod (by decide) h), dataField_toNat]

theorem decode_zero : decode (0 : CmdWord k) = .upd 0 := by
  rw [decode_of_mod_zero (by simp)]
  simp

theorem decode_of_mod_one (h : cmd.toNat % 4 = 1) : decode cmd = .val :=
  decode_of_opField_val (opField_eq_of_mod (by decide) h)

theorem decode_of_mod_two (h : cmd.toNat % 4 = 2) : decode cmd = .rst :=
  decode_of_opField_rst (opField_eq_of_mod (by decide) h)

theorem decode_of_mod_three (h : cmd.toNat % 4 = 3) : decode cmd = .chk :=
  decode_of_opField_chk (opField_eq_of_mod (by decide) h)

end

/-- A word is one of the four commands: its operation code, and what it decodes to. -/
theorem decode_cases {k : Nat} (cmd : CmdWord k) :
    (cmd.toNat % 4 = 0 ∧ decode cmd = .upd (dataField cmd).toNat) ∨ (cmd.toNat % 4 = 1 ∧ decode cmd = .val) ∨
      (cmd.toNat % 4 = 2 ∧ decode cmd = .rst) ∨ (cmd.toNat % 4 = 3 ∧ decode cmd = .chk) := by
  have hlt : cmd.toNat % 4 < 4 := Nat.mod_lt _ (by decide)
  interval_cases h : cmd.toNat % 4
  · exact .inl ⟨rfl, dataField_toNat cmd ▸ decode_of_mod_zero h⟩
  · exact .inr (.inl ⟨rfl, decode_of_mod_one h⟩)
  · exact .inr (.inr (.inl ⟨rfl, decode_of_mod_two h⟩))
  · exact .inr (.inr (.inr ⟨rfl, decode_of_mod_three h⟩))

/-- The data field bounds the unit, so no word decodes to an ill-formed command. -/
theorem decode_wellFormed {k : Nat} (cmd : CmdWord k) : (decode cmd).wellFormed k = true := by
  obtain ⟨-, e⟩ | ⟨-, e⟩ | ⟨-, e⟩ | ⟨-, e⟩ := decode_cases cmd <;> rw [e]
  case inl => exact decide_eq_true (Machine.toNat_le_modulus (dataField cmd))
  all_goals rfl

theorem encode_decode_toNat {k : Nat} (cmd : CmdWord k) :
    (encode k (decode cmd)).toNat = if cmd.toNat % 4 = 0 then cmd.toNat else cmd.toNat % 4 := by
  rw [encode_toNat]
  obtain ⟨h, e⟩ | ⟨h, e⟩ | ⟨h, e⟩ | ⟨h, e⟩ := decode_cases cmd <;> rw [e, h]
  case inl =>
    have hunit : ((Instr.upd (dataField cmd).toNat).data k).toNat = cmd.toNat / 4 := by
      rw [Instr.data, BitVec.ofNat_toNat, BitVec.setWidth_eq, dataField_toNat]
    have hop : (Instr.upd (dataField cmd).toNat).op.toNat = 0 := rfl
    rw [hunit, hop, if_pos rfl]
    omega
  all_goals simp [Instr.data, Instr.op]

namespace Machine

/-! ### Responses (R35) -/

/-- A command responds if and only if it is a query. -/
theorem exec_rspValid {i : Instr} {s t : State} (h : exec i s = .next t) : t.rspValid = i.isQuery := by
  obtain ⟨x, rfl, -, rfl⟩ | ⟨x, rfl, -, rfl⟩ | ⟨rfl, -, rfl⟩ | ⟨rfl, rfl⟩ | ⟨rfl, -, rfl⟩ := exec_next_cases h <;> rfl

theorem step_rspValid_iff {s t : State} (h : step s = .next t) :
    t.rspValid = true ↔
      ∃ p rest, s.inputs = p :: rest ∧ p.rst = false ∧ p.cmdValid = true ∧ (decode p.cmd).isQuery = true := by
  obtain ⟨hi, rfl⟩ | ⟨p, rest, hi, ⟨hr, rfl⟩ | ⟨hr, hc, he⟩ | ⟨hr, hc, rfl⟩⟩ := step_next_cases h
  · simp [hi, State.rspValid]
  · simp [hi, hr, State.rspValid]
  · simp [hi, hr, hc, exec_rspValid he]
  · simp [hi, hc, State.rspValid]

theorem value_hi_toNat {k : Nat} (w : BitVec (2 * k)) : (Rsp.value w).hi.toNat = w.toNat / 2 ^ k := by
  have hlt : w.toNat / 2 ^ k < 2 ^ k := Nat.div_lt_of_lt_mul (by rw [← pow_add, ← two_mul]; exact w.isLt)
  simp [Rsp.hi, Nat.shiftRight_eq_div_pow, Nat.mod_eq_of_lt hlt]

theorem value_lo_toNat {k : Nat} (w : BitVec (2 * k)) : (Rsp.value w).lo.toNat = w.toNat % 2 ^ k := by
  simp [Rsp.lo]

/-! ### Assembling (R38, R39, R81) -/

theorem assembleLine_instr {k : Nat} {i : Instr} (h : i.wellFormed k = true) :
    assembleLine k (.instr i) = .ok [encode k i] := if_pos h

theorem assembleLine_instr_error {k : Nat} {i : Instr} (h : i.wellFormed k = false) :
    assembleLine k (.instr i) = .error .unitTooWide := by simp [assembleLine, h]

theorem assembleLine_pseudo {k : Nat} {p : Pseudo} (h : p.wellFormed k = true) :
    assembleLine k (.pseudo p) = .ok ((expand p).map (encode k)) := if_pos h

theorem encode_upd_toNat {k u : Nat} (h : u ≤ modulus k) : (encode k (.upd u)).toNat = u <<< 2 := by
  have hdata : ((Instr.upd u).data k).toNat = u := toNat_ofNat_of_unitFits (decide_eq_true h)
  rw [encode_toNat, hdata, Nat.shiftLeft_eq, mul_comm]
  rfl

/-- A line that is refused refuses the lines it stands among. -/
theorem assembleLines_error_of_mem {k : Nat} {l : Line} {e : AsmError} {ls : List Line} (hl : l ∈ ls)
    (he : assembleLine k l = .error e) : ∃ e', assembleLines k ls = .error e' := by
  induction hl with
  | head ls => exact ⟨e, by simp [assembleLines, he]⟩
  | tail l' _ ih =>
    obtain ⟨e', ih⟩ := ih
    cases hl' : assembleLine k l' with
    | error e => exact ⟨e, by simp [assembleLines, hl']⟩
    | ok ws => exact ⟨e', by simp [assembleLines, hl', ih]⟩

/-- Stating the width again is an error, whether or not the first statement is (R38). -/
theorem assembleProgram_second_width {w w' : Nat} {ls : List Line} (h : Line.width w' ∈ ls) :
    ∃ e, assembleProgram (.width w :: ls) = .error e := by
  cases hv : variantOfWidth w with
  | error e => exact ⟨e, by simp [assembleProgram, hv]⟩
  | ok v =>
    obtain ⟨e, he⟩ := assembleLines_error_of_mem (k := v.k) h rfl
    exact ⟨e, by simp [assembleProgram, hv, he]⟩

/-! ### Reading hexadecimal numbers (R38) -/

theorem digitValue_hexDigit : ∀ d < 16, digitValue (hexDigit d) = some d := by decide

theorem digitsValue_append (base acc : Nat) (cs ds : List Char) :
    digitsValue base acc (cs ++ ds) = (digitsValue base acc cs).bind fun v => digitsValue base v ds := by
  induction cs generalizing acc with
  | nil => rfl
  | cons c cs ih =>
    simp only [List.cons_append, digitsValue]
    cases digitValue c with
    | none => rfl
    | some d =>
      by_cases hd : d < base
      · simp [hd, ih]
      · simp [hd]

theorem digitsValue_hexDigits (n x : Nat) : digitsValue 16 0 (hexDigits n x) = some (x % 16 ^ n) := by
  induction n generalizing x with
  | zero => simp [hexDigits, digitsValue, Nat.mod_one]
  | succ n ih =>
    have hd : x % 16 < 16 := Nat.mod_lt _ (by decide)
    have hx : x % 16 ^ (n + 1) = 16 * (x / 16 % 16 ^ n) + x % 16 := by
      rw [pow_succ', Nat.mod_mul, add_comm]
    rw [hexDigits, digitsValue_append, ih, hx]
    simp [digitsValue, digitValue_hexDigit _ hd, hd]

theorem hexDigits_length (n x : Nat) : (hexDigits n x).length = n := by
  induction n generalizing x with
  | zero => rfl
  | succ n ih => simp [hexDigits, ih]

theorem number_hex {ds : List Char} (h : ds ≠ []) : number ('0' :: 'x' :: ds) = digitsValue 16 0 ds := by
  cases ds with
  | nil => exact absurd rfl h
  | cons d ds => rfl

/-- As many digits as the unit has nibbles read back as the unit. -/
theorem number_hexDigits (v : Variant) {x : Nat} (h : x ≤ modulus v.k) :
    number ('0' :: 'x' :: hexDigits (v.k / 4) x) = some x := by
  have hpos : 0 < v.k / 4 := by cases v <;> decide
  have hpow : 16 ^ (v.k / 4) = 2 ^ v.k := by cases v <;> rfl
  have hlt : x < 16 ^ (v.k / 4) := by
    have := modulus_add_one v.k
    omega
  have hne : hexDigits (v.k / 4) x ≠ [] := List.ne_nil_of_length_pos (by rwa [hexDigits_length])
  rw [number_hex hne, digitsValue_hexDigits, Nat.mod_eq_of_lt hlt]

/-! ### Reading back a disassembled command (R38) -/

/-- A character that continues a word: no comment, no blank, no comma. -/
def isWordChar (c : Char) : Bool := !(c == ';') && !isBlankChar c && !(c == ',')

/-- Characters of a word are read as one word. -/
theorem tokens_of_wordChars {ds : List Char} (cur : List Char) (h : ∀ c ∈ ds, isWordChar c = true) :
    tokens cur ds = wordToken (cur ++ ds) := by
  induction ds generalizing cur with
  | nil => simp [tokens]
  | cons c cs ih =>
    obtain ⟨hc, hcs⟩ := List.forall_mem_cons.mp h
    simp only [isWordChar, Bool.and_eq_true, Bool.not_eq_true'] at hc
    obtain ⟨⟨hsemi, hblank⟩, hcomma⟩ := hc
    simp [tokens, hsemi, hblank, hcomma, ih _ hcs]

theorem isWordChar_hexDigit : ∀ d < 16, isWordChar (hexDigit d) = true := by decide

theorem isWordChar_of_mem_hexDigits {n x : Nat} : ∀ c ∈ hexDigits n x, isWordChar c = true := by
  induction n generalizing x with
  | zero => simp [hexDigits]
  | succ n ih =>
    intro c hc
    rw [hexDigits, List.mem_append, List.mem_singleton] at hc
    obtain hc | rfl := hc
    · exact ih c hc
    · exact isWordChar_hexDigit _ (Nat.mod_lt _ (by decide))

theorem tokens_printInstr_upd (k x : Nat) :
    tokens [] (printInstr k (.upd x)) = [.word "UPD".toList, .word ('0' :: 'x' :: hexDigits (k / 4) x)] :=
  calc
    tokens [] (printInstr k (.upd x))
    _ = .word "UPD".toList :: tokens ['0', 'x'] (hexDigits (k / 4) x) := rfl
    _ = .word "UPD".toList :: wordToken ('0' :: 'x' :: hexDigits (k / 4) x) := by
      rw [tokens_of_wordChars _ isWordChar_of_mem_hexDigits]; rfl

theorem parseLine_upd {u : List Char} {x : Nat} (h : number u = some x) :
    parseLine [.word "UPD".toList, .word u] = .ok (.instr (.upd x)) := by
  simp [parseLine, h]

/-- What the printer writes of a well-formed command reads back as that command. -/
theorem parseLine_printInstr (v : Variant) {i : Instr} (h : i.wellFormed v.k = true) :
    parseLine (tokens [] (printInstr v.k i)) = .ok (.instr i) := by
  cases i with
  | upd x => rw [tokens_printInstr_upd, parseLine_upd (number_hexDigits v (of_decide_eq_true h))]
  | val => rfl
  | rst => rfl
  | chk => rfl

end Machine

end Sys2Proof

namespace Sys2Proof.Proofs

open Sys2Proof.Machine

/-- Settles O56: the decoder reads the operation code the encoder wrote, and the unit without loss. -/
theorem decodeEncodeRoundTrip : Obligations.DecodeEncodeRoundTrip := fun _ _ => decode_encode

/-- Settles O4: a step responds as the command it executes does. -/
theorem responsesComeFromQueriesOnly : Obligations.ResponsesComeFromQueriesOnly :=
  ⟨fun _ _ => step_rspValid_iff, fun _ w => ⟨value_hi_toNat w, value_lo_toNat w⟩, fun _ _ _ => ⟨rfl, rfl⟩⟩

/-- Settles O55, by the four values of the operation code. -/
theorem everyWordIsACommand : Obligations.EveryWordIsACommand := fun _ cmd =>
  ⟨decode_of_mod_zero, decode_of_mod_one, decode_of_mod_two, decode_of_mod_three, decode_wellFormed cmd,
    decode_zero, encode_decode_toNat cmd⟩

/-- Settles O58: the assembler by its cases; the disassembler by reading its text back digit by digit. -/
theorem assemblerAndDisassembler : Obligations.AssemblerAndDisassembler := by
  intro v
  have hval : encode v.k .val = 1 := by cases v <;> decide
  have hrst : encode v.k .rst = 2 := by cases v <;> decide
  have hchk : encode v.k .chk = 3 := by cases v <;> decide
  refine ⟨fun u hu => ⟨encode v.k (.upd u), assembleLine_instr (decide_eq_true hu), encode_upd_toNat hu⟩,
    fun u hu => assembleLine_instr_error (decide_eq_false (Nat.not_le.mpr hu)), hval ▸ assembleLine_instr rfl,
    hrst ▸ assembleLine_instr rfl, hchk ▸ assembleLine_instr rfl, fun _ _ _ => assembleProgram_second_width,
    fun cmd => parseLine_printInstr v (decode_wellFormed cmd), fun data => ⟨?_, ?_, ?_⟩⟩
  · rw [disassemble, decode_of_opField_val (opField_commandWord data _), printInstr]
  · rw [disassemble, decode_of_opField_rst (opField_commandWord data _), printInstr]
  · rw [disassemble, decode_of_opField_chk (opField_commandWord data _), printInstr]

/-- Settles O3: the step rules for an idle input and for none; the early fold leaves the registers as they were. -/
theorem idleStepHoldsTheState : Obligations.IdleStepHoldsTheState := fun s =>
  ⟨fun _ _ => step_of_idle, step_nil, (foldByChoice_sums s.accs).1, (foldByChoice_sums s.accs).2,
    fun a b h => by rw [h, foldByChoice_eager]⟩

/-- Settles O57, by decoding the eleven words. -/
theorem workedEncodingsDecode : Obligations.WorkedEncodingsDecode := by
  unfold Obligations.WorkedEncodingsDecode
  decide

/-- Settles O59: each expansion is its definition; a well-formed sequence is assembled command by command. -/
theorem pseudoInstructionExpansions : Obligations.PseudoInstructionExpansions :=
  ⟨fun _ => rfl, fun _ => rfl, fun _ => rfl, rfl, fun _ _ => assembleLine_pseudo⟩

end Sys2Proof.Proofs
end

section
/-! Proofs/Arithmetic: the fold loop against its closed form (O37, O38), and the laws of the adder, the residue and the
complement (O39 to O43). -/

namespace Sys2Proof.Machine

/-! ### The fold and its loop (R40, R41) -/

theorem fold_of_le {k n : Nat} (h : n ≤ modulus k) : fold k n = n := (fold_unique h rfl Iff.rfl).symm

theorem foldPass_eq (k n : Nat) : foldPass k n = n % 2 ^ k + n / 2 ^ k := by
  rw [foldPass, modulus, Nat.and_two_pow_sub_one_eq_mod, Nat.shiftRight_eq_div_pow]

/-- A pass takes `M` off for each unit it moves down from bit `k` to bit 0. -/
theorem foldPass_add (k n : Nat) : foldPass k n + modulus k * (n / 2 ^ k) = n := by
  calc foldPass k n + modulus k * (n / 2 ^ k)
    _ = n % 2 ^ k + (modulus k + 1) * (n / 2 ^ k) := by rw [foldPass_eq]; ring
    _ = n := by rw [modulus_add_one, Nat.mod_add_div]

theorem foldPass_eq_zero {k n : Nat} : foldPass k n = 0 ↔ n = 0 := by
  rw [foldPass_eq, Nat.add_eq_zero_iff]
  constructor
  · rintro ⟨hlo, hhi⟩
    rw [← Nat.mod_add_div n (2 ^ k), hlo, hhi, Nat.mul_zero]
  · rintro rfl
    exact ⟨Nat.zero_mod _, Nat.zero_div _⟩

/-- No pass changes the fold: it keeps the residue, and zero is reached from zero only. -/
theorem fold_foldPass {v : Variant} (n : Nat) : fold v.k (foldPass v.k n) = fold v.k n := by
  refine fold_unique (fold_le (one_lt_modulus v).le _) ?_ (fold_eq_zero.trans foldPass_eq_zero)
  rw [fold_mod, ← Nat.add_mul_mod_self_left, foldPass_add]

theorem foldPass_lt {v : Variant} {n : Nat} (h : modulus v.k < n) : foldPass v.k n < n := by
  have hM := modulus_add_one v.k
  have hq : 0 < n / 2 ^ v.k := Nat.div_pos (by omega) (Nat.two_pow_pos _)
  have hpos := Nat.mul_pos (one_lt_modulus v).le hq
  have hadd := foldPass_add v.k n
  omega

theorem foldLoop_of_le {k n : Nat} (fuel : Nat) (h : n ≤ modulus k) : foldLoop k fuel n = n := by
  cases fuel with
  | zero => rfl
  | succ fuel => rw [foldLoop, needsFold, decide_eq_false (Nat.not_lt.2 h), if_neg Bool.false_ne_true]

theorem foldLoop_succ_of_lt {k n : Nat} (fuel : Nat) (h : modulus k < n) :
    foldLoop k (fuel + 1) n = foldLoop k fuel (foldPass k n) := by
  rw [foldLoop, needsFold, decide_eq_true h, if_pos rfl]

/-- A pass in front of a loop that ends at the fold gives a loop that ends at the fold. -/
theorem foldLoop_succ_eq_fold {v : Variant} {fuel n : Nat}
    (h : modulus v.k < n → foldLoop v.k fuel (foldPass v.k n) = fold v.k (foldPass v.k n)) :
    foldLoop v.k (fuel + 1) n = fold v.k n := by
  by_cases hn : n ≤ modulus v.k
  · rw [foldLoop_of_le _ hn, fold_of_le hn]
  · rw [foldLoop_succ_of_lt _ (Nat.not_le.1 hn), h (Nat.not_le.1 hn), fold_foldPass]

/-- The passes are enough when they bring the value into range one by one. -/
theorem foldLoop_eq_fold {v : Variant} {fuel n : Nat} (h : n ≤ modulus v.k + fuel) :
    foldLoop v.k fuel n = fold v.k n := by
  induction fuel generalizing n with
  | zero => rw [foldLoop_of_le 0 h, fold_of_le h]
  | succ fuel ih =>
    refine foldLoop_succ_eq_fold fun hn => ih ?_
    have hlt := foldPass_lt hn
    omega

/-- The first pass of a value below `2^(2k)` adds two `k`-bit halves. -/
theorem foldPass_le_two_mul {k n : Nat} (h : n < 2 ^ (2 * k)) : foldPass k n ≤ 2 * modulus k := by
  have hM := modulus_add_one k
  have hlo := Nat.mod_lt n (Nat.two_pow_pos k)
  have hhi : n / 2 ^ k < 2 ^ k := Nat.div_lt_of_lt_mul (by rwa [← pow_add, ← two_mul])
  rw [foldPass_eq]
  omega

/-- The second pass of such a value moves a carry of 1 down, which is the subtraction of one `M`. -/
theorem foldPass_le_modulus {k n : Nat} (hlt : modulus k < n) (hle : n ≤ 2 * modulus k) : foldPass k n ≤ modulus k := by
  have hM := modulus_add_one k
  have hadd := foldPass_add k n
  have hq : n / 2 ^ k = 1 := Nat.div_eq_of_lt_le (by omega) (by omega)
  rw [hq] at hadd
  omega

theorem foldLoop_two_eq_fold {v : Variant} {n : Nat} (h : n < 2 ^ (2 * v.k)) : foldLoop v.k 2 n = fold v.k n :=
  foldLoop_succ_eq_fold fun _ => foldLoop_succ_eq_fold fun hlt =>
    foldLoop_eq_fold (foldPass_le_modulus hlt (foldPass_le_two_mul h))

/-! ### The adder (R42, R43) -/

theorem toNat_pos {k : Nat} {a : Word k} (h : a ≠ 0) : 0 < a.toNat :=
  Nat.pos_of_ne_zero fun e => h (BitVec.eq_of_toNat_eq e)

section
variable {v : Variant} (a b c : Word v.k)

/-- The carry out of bit `k-1` counts one `M` to take off (R42, R48). -/
theorem ocadd_toNat_eq_low_add_carry :
    (ocadd a b).toNat = (a.toNat + b.toNat) % 2 ^ v.k + (a.toNat + b.toNat) / 2 ^ v.k := by
  have ha := toNat_le_modulus a
  have hb := toNat_le_modulus b
  have hM := modulus_add_one v.k
  rw [← foldPass_eq, ocadd_toNat_eq_fold, ← fold_foldPass, fold_of_le]
  by_cases h : a.toNat + b.toNat ≤ modulus v.k
  · have hadd := foldPass_add v.k (a.toNat + b.toNat)
    omega
  · exact foldPass_le_modulus (by omega) (by omega)

theorem ocadd_comm : ocadd a b = ocadd b a := by
  rw [← BitVec.toNat_inj, ocadd_toNat_eq_fold, ocadd_toNat_eq_fold, Nat.add_comm]

theorem ocadd_ocadd_toNat : (ocadd (ocadd a b) c).toNat = fold v.k (a.toNat + b.toNat + c.toNat) := by
  rw [ocadd_toNat_eq_fold, ocadd_toNat_eq_fold, fold_fold_add]

theorem ocadd_assoc : ocadd (ocadd a b) c = ocadd a (ocadd b c) := by
  rw [← BitVec.toNat_inj, ocadd_ocadd_toNat, ocadd_toNat_eq_fold a, ocadd_toNat_eq_fold b, fold_add_fold, Nat.add_assoc]

theorem ocadd_zero : ocadd a 0 = a := by
  rw [← BitVec.toNat_inj, ocadd_toNat_eq_fold]
  exact fold_of_le (toNat_le_modulus a)

theorem ocadd_allOnes {a : Word v.k} (h : a ≠ 0) : ocadd a (BitVec.allOnes v.k) = a := by
  have hpos := toNat_pos h
  rw [← BitVec.toNat_inj, ocadd_toNat v.k_pos, allOnes_toNat, if_neg (by omega), Nat.add_sub_cancel]

/-! ### Residues and the complement (R44 to R47) -/

theorem canon_allOnes (k : Nat) : canon (BitVec.allOnes k) = 0 := by
  rw [canon, (isAllOnes_iff _).2 (allOnes_toNat k), if_pos rfl]

theorem canon_of_ne_allOnes {k : Nat} {a : Word k} (h : a ≠ BitVec.allOnes k) : canon a = a := by
  rw [canon, isAllOnes, beq_false_of_ne h, if_neg Bool.false_ne_true]

theorem canon_ocadd_toNat : (canon (ocadd a b)).toNat = (a.toNat + b.toNat) % modulus v.k := by
  rw [canon_toNat_mod (one_lt_modulus v).le, ocadd_mod]

theorem canon_ocadd : canon (ocadd a b) = modadd (canon a) (canon b) := by
  rw [← BitVec.toNat_inj, canon_ocadd_toNat, modadd_toNat _ _ (canon_lt a) (canon_lt b),
    canon_toNat_mod (one_lt_modulus v).le, canon_toNat_mod (one_lt_modulus v).le, ← Nat.add_mod]

theorem ocadd_ocneg : ocadd a (ocneg a) = BitVec.allOnes v.k := by
  have ha := toNat_le_modulus a
  rw [← BitVec.toNat_inj, ocadd_toNat_eq_fold, ocneg_toNat, Nat.add_sub_cancel' ha, fold_of_le le_rfl, allOnes_toNat]

end

theorem ocneg_eq_ofNat {k : Nat} (a : Word k) : ocneg a = BitVec.ofNat k (modulus k - a.toNat) := by
  rw [← ocneg_toNat, BitVec.ofNat_toNat, BitVec.setWidth_eq]

theorem ocneg_zero (k : Nat) : ocneg (0 : Word k) = BitVec.allOnes k := BitVec.not_zero

theorem ocneg_allOnes (k : Nat) : ocneg (BitVec.allOnes k) = 0 := BitVec.not_allOnes

theorem checkValue_eq_canon_ocneg {k : Nat} (a : Word k) : checkValue a = canon (ocneg a) := by
  rw [← BitVec.toNat_inj, checkValue_toNat, canon_toNat, ocneg_toNat]

theorem canon_ocneg_toNat {v : Variant} (a : Word v.k) :
    (canon (ocneg a)).toNat = if a = 0 then 0 else modulus v.k - a.toNat := by
  split
  · next h => rw [h, ocneg_zero, canon_allOnes]; rfl
  · next h =>
    have hpos := toNat_pos h
    have hM := (one_lt_modulus v).le
    rw [canon_toNat, ocneg_toNat, if_neg (by omega)]

/-- `canon` identifies the two patterns of residue 0 and nothing else. -/
theorem sameResidue_iff {k : Nat} (a b : Word k) : SameResidue a b ↔
    (a = b ∨ (a = 0 ∧ b = BitVec.allOnes k) ∨ (a = BitVec.allOnes k ∧ b = 0)) := by
  have h0 : (0 : Word k).toNat = 0 := BitVec.toNat_zero
  simp only [SameResidue, ← BitVec.toNat_inj, canon_toNat, allOnes_toNat, h0]
  split <;> split <;> omega

theorem SameResidue.ocadd {v : Variant} {a a' b b' : Word v.k} (ha : SameResidue a a') (hb : SameResidue b b') :
    SameResidue (ocadd a b) (ocadd a' b') := by
  rw [SameResidue, canon_ocadd, canon_ocadd, ha, hb]

/-- The complement exchanges the two patterns of residue 0. -/
theorem SameResidue.ocneg {k : Nat} {a b : Word k} (h : SameResidue a b) : SameResidue (ocneg a) (ocneg b) := by
  obtain rfl | ⟨rfl, rfl⟩ | ⟨rfl, rfl⟩ := (sameResidue_iff a b).1 h
  · rfl
  all_goals
    rw [ocneg_zero, ocneg_allOnes]
    exact h.symm

theorem canon_canon {v : Variant} (a : Word v.k) : canon (canon a) = canon a :=
  canon_of_ne_allOnes fun e => by
    have hlt := canon_lt a
    rw [e, allOnes_toNat] at hlt
    exact hlt.false

end Sys2Proof.Machine

namespace Sys2Proof.Proofs

open Sys2Proof.Machine

/-- Settles O37: a pass keeps the fold and lowers a value above `M`; below `2^(2k)` the first pass gives at most `2M`, the
second at most `M`. -/
theorem foldLoopIsTheClosedForm : Obligations.FoldLoopIsTheClosedForm := fun _ _ =>
  ⟨foldLoop_eq_fold (Nat.le_add_left _ _), foldPass_lt, foldLoop_two_eq_fold⟩

/-- Settles O38, law by law. -/
theorem foldLaws : Obligations.FoldLaws := fun v =>
  ⟨fun _ => fold_mod _, fold_le (one_lt_modulus v).le, fun _ => fold_eq_zero, fun _ => rfl, fun _ => fold_of_le,
    fold_fold_add⟩

/-- Settles O39: one pass folds the sum of two `k`-bit words. -/
theorem adderIsTheFoldOfTheSum : Obligations.AdderIsTheFoldOfTheSum := fun _ a b =>
  ⟨ocadd_toNat_eq_low_add_carry a b, ocadd_toNat_eq_fold a b⟩

/-- Settles O40, law by law; `M - a` is the complement of `a`. -/
theorem adderLaws : Obligations.AdderLaws := by
  intro v a b c
  refine ⟨ocadd_comm a b, ⟨ocadd_assoc a b c, ocadd_ocadd_toNat a b c⟩, ocadd_zero a, ⟨?_, ocadd_allOnes⟩,
    ocadd_eq_zero_iff a b, ocadd_mod a b, ⟨fun h => ?_, fun h => ?_⟩, ?_⟩
  · rw [ocadd_comm, ocadd_zero]
  · rw [ocadd_toNat v.k_pos, if_pos h]
  · rw [ocadd_toNat v.k_pos, if_neg (Nat.not_le.2 h)]
  · rw [← ocneg_eq_ofNat, ocadd_ocneg]

/-- Settles O41: `modadd` reduces, and the adder and `canon` keep the residue. -/
theorem residueOfASum : Obligations.ResidueOfASum := fun _ a b =>
  ⟨modadd_toNat a b, canon_ocadd_toNat a b, canon_ocadd a b⟩

/-- Settles O42 from the values of `canon`, `ocneg` and the check value as numbers. -/
theorem canonAndNegation : Obligations.CanonAndNegation := fun v a =>
  ⟨canon_toNat_mod (one_lt_modulus v).le a, canon_lt a, fun h => h ▸ canon_allOnes _, canon_of_ne_allOnes, ocneg_toNat a,
    ocadd_ocneg a, ocneg_zero _, ocneg_allOnes _, fun _ => ⟨checkValue_eq_canon_ocneg a, canon_ocneg_toNat a⟩⟩

/-- Settles O43: only 0 and `M` share a residue; the complement exchanges them, the adder sees residues alone. -/
theorem representationIndependence : Obligations.RepresentationIndependence :=
  ⟨fun _ => sameResidue_iff, fun _ _ _ _ _ => SameResidue.ocadd, fun _ _ _ h => ⟨h.ocneg, h⟩, fun _ => canon_canon⟩

end Sys2Proof.Proofs
end

section
/-! Proofs/Update: one UPD on the registers and on the residues (O13, O14), its corner cases (O15), the registers after a
stream of units (O16, O17), and the register pairs that streams reach (O18). -/

namespace Sys2Proof.Machine

/-! ### One UPD (R50 to R52) -/

/-- A unit read off the data field is presented there unchanged. -/
@[simp] theorem unitOperand_toNat {k : Nat} (x : Word k) : unitOperand k x.toNat = x :=
  BitVec.eq_of_toNat_eq (toNat_ofNat_of_unitFits (decide_eq_true (toNat_le_modulus x)))

theorem exec_upd_toNat {s : State} (x : Word s.variant.k) (hv : s.hasValue = true) :
    exec (.upd x.toNat) s = .next (s.setAccs (s.accs.absorb x)).silent := by
  rw [exec_upd_of_value _ hv, unitOperand_toNat]

theorem exec_upd_eager {s : State} {a b : Word s.variant.k} (x : Word s.variant.k) (hv : s.hasValue = true)
    (hs : s.accs = .eager a b) :
    exec (.upd x.toNat) s = .next (s.setAccs (.eager (ocadd a x) (ocadd b (ocadd a x)))).silent := by
  rw [exec_upd_toNat x hv, hs, absorb_eager]

/-! ### The adder at the ends of its range (R43, R54) -/

section
variable {v : Variant} {a b : Word v.k}

theorem allOnes_ne_zero (v : Variant) : BitVec.allOnes v.k ≠ 0 := fun h => by
  have hM := one_lt_modulus v
  rw [← allOnes_toNat, h] at hM
  exact absurd hM (by simp)

theorem zero_ocadd (a : Word v.k) : ocadd 0 a = a := by rw [ocadd_comm, ocadd_zero]

/-- Only the two patterns of residue 0 can leave a register as it was, the all-ones one unless that holds 0. -/
theorem ocadd_eq_left_iff : ocadd b a = b ↔ a = 0 ∨ (a = BitVec.allOnes v.k ∧ b ≠ 0) := by
  have hb := toNat_le_modulus b
  have ha := toNat_le_modulus a
  have h0 : (0 : Word v.k).toNat = 0 := BitVec.toNat_zero
  simp only [ne_eq, ← BitVec.toNat_inj, ocadd_toNat v.k_pos, allOnes_toNat, h0]
  split <;> omega

theorem ocadd_eq_allOnes (h : a.toNat + b.toNat = modulus v.k) : ocadd a b = BitVec.allOnes v.k := by
  rw [← BitVec.toNat_inj, ocadd_toNat v.k_pos, if_pos h.le, h, allOnes_toNat]

theorem ocadd_eq_one (h : a.toNat + b.toNat = modulus v.k + 1) : ocadd a b = 1 := by
  have h1 : (1 : Word v.k).toNat = 1 := Nat.mod_eq_of_lt (Nat.one_lt_two_pow v.k_pos.ne')
  rw [← BitVec.toNat_inj, ocadd_toNat v.k_pos, if_neg (by omega), h1]
  omega

theorem ocadd_allOnes_eq_ite (a : Word v.k) :
    ocadd a (BitVec.allOnes v.k) = if a = 0 then BitVec.allOnes v.k else a := by
  split
  · next h => rw [h, zero_ocadd]
  · next h => exact ocadd_allOnes h

/-- Adding the all-ones pattern shows in no residue. -/
theorem sameResidue_ocadd_allOnes (a : Word v.k) : SameResidue (ocadd a (BitVec.allOnes v.k)) a := by
  have h0 : SameResidue (BitVec.allOnes v.k) 0 := (sameResidue_iff _ _).2 (.inr (.inr ⟨rfl, rfl⟩))
  have h := SameResidue.ocadd (rfl : SameResidue a a) h0
  rwa [ocadd_zero] at h

/-- Any nonzero pattern `b` is a sum with a given `a`: the other summand is `b - a`. -/
theorem exists_ocadd_eq (hb : b ≠ 0) (a : Word v.k) : ∃ x, ocadd a x = b :=
  ⟨ocadd (ocneg a) b, by rw [← ocadd_assoc, ocadd_ocneg, ocadd_comm, ocadd_allOnes hb]⟩

end

/-! ### The registers after a stream (R53) -/

/-- Numbers of one residue fold alike if both are 0 or neither is (R41). -/
theorem fold_congr {v : Variant} {m n : Nat} (h : m ≡ n [MOD modulus v.k]) (h0 : m = 0 ↔ n = 0) :
    fold v.k m = fold v.k n :=
  fold_unique (fold_le (one_lt_modulus v).le _) ((fold_mod m).trans h) (fold_eq_zero.trans h0)

theorem fold_add_mul_fold {v : Variant} (u n w : Nat) : fold v.k (u + n * fold v.k w) = fold v.k (u + n * w) := by
  refine fold_congr (Nat.ModEq.add_left u (Nat.ModEq.mul_left n (fold_mod w))) ?_
  rw [Nat.add_eq_zero_iff, Nat.add_eq_zero_iff, Nat.mul_eq_zero, Nat.mul_eq_zero, fold_eq_zero]

/-- The second register after a unit, and then `n` more that sum to `z`: the folds of the first register can wait. -/
theorem fold_second_sum {v : Variant} (b w n z : Nat) :
    fold v.k (fold v.k (b + fold v.k w) + n * fold v.k w + z) = fold v.k (b + z + (n + 1) * w) := by
  calc fold v.k (fold v.k (b + fold v.k w) + n * fold v.k w + z)
    _ = fold v.k (b + fold v.k w + (n * fold v.k w + z)) := by rw [Nat.add_assoc, fold_fold_add]
    _ = fold v.k (b + z + (n + 1) * fold v.k w) := by congr 1; ring
    _ = fold v.k (b + z + (n + 1) * w) := fold_add_mul_fold _ _ _

/-- The closed form of R53 from any registers: each unit enters the first sum once, and the second once for itself and
once for every unit after it. -/
theorem absorbAll_sums {v : Variant} (xs : List (Word v.k)) {a : Accs v.k} (ha : a.WithinBatch) :
    (a.absorbAll (xs.map BitVec.toNat)).sum1.toNat =
        fold v.k (a.sum1.toNat + plainSum1 (xs.map BitVec.toNat)) ∧
      (a.absorbAll (xs.map BitVec.toNat)).sum2.toNat =
        fold v.k (a.sum2.toNat + xs.length * a.sum1.toNat + plainSum2 (xs.map BitVec.toNat)) := by
  induction xs generalizing a with
  | nil =>
    have h1 := fold_of_le (toNat_le_modulus a.sum1)
    have h2 := fold_of_le (toNat_le_modulus a.sum2)
    simp [Accs.absorbAll, plainSum1, plainSum2, h1, h2]
  | cons x xs ih =>
    obtain ⟨e1, e2⟩ := absorb_sums ha x
    obtain ⟨i1, i2⟩ := ih (absorb_withinBatch ha x)
    rw [e1, ocadd_toNat_eq_fold] at i1 i2
    rw [e2, ocadd_toNat_eq_fold, ocadd_toNat_eq_fold] at i2
    rw [List.map_cons, absorbAll_cons, unitOperand_toNat, i1, i2]
    constructor
    · rw [fold_fold_add, plainSum1, plainSum1, List.sum_cons, Nat.add_assoc]
    · rw [fold_second_sum, plainSum2, List.length_map, List.length_cons]
      congr 1
      ring

/-- A stream answers from any state that holds values; only the accumulators and the response port differ after it. -/
theorem run_updAll_of_value (us : List Nat) {s : State} (hv : s.hasValue = true) :
    ∃ o, run (updAll us) s = .next ({ s with accs := s.accs.absorbAll us, rsp := o }, []) := by
  cases us with
  | nil => exact ⟨s.rsp, rfl⟩
  | cons u us =>
    exact ⟨none, run_cons_next (updAll us) (exec_upd_of_value u hv)
      (run_updAll us (s := s.setAccs (s.accs.absorb (unitOperand s.variant.k u))) hv)⟩

/-- A reset and then a stream: the units absorbed from the empty state. -/
theorem run_rst_updAll (us : List Nat) (s : State) :
    run (.rst :: updAll us) s = .next (s.empty.afterStream us, []) :=
  run_cons_next _ (exec_rst s) (run_updAll us (s := s.empty) rfl)

theorem plainSum1_eq_zero_iff {k : Nat} (xs : List (Word k)) :
    plainSum1 (xs.map BitVec.toNat) = 0 ↔ ∀ x ∈ xs, x = 0 := by
  simp [plainSum1, List.sum_eq_zero_iff, ← BitVec.toNat_inj]

theorem plainSum2_eq_zero_iff {k : Nat} (xs : List (Word k)) :
    plainSum2 (xs.map BitVec.toNat) = 0 ↔ ∀ x ∈ xs, x = 0 := by
  induction xs with
  | nil => simp [plainSum2]
  | cons x xs ih =>
    rw [List.forall_mem_cons, ← ih, List.map_cons, plainSum2, Nat.add_eq_zero_iff, Nat.mul_eq_zero, ← BitVec.toNat_inj]
    simp

/-- The registers and residues of the stream sums, after a stream on the empty state. -/
theorem afterStream_empty_sums (s : State) (xs : List (Word s.variant.k)) :
    (s.empty.afterStream (xs.map BitVec.toNat)).sum1.toNat = fold s.variant.k (plainSum1 (xs.map BitVec.toNat)) ∧
      (s.empty.afterStream (xs.map BitVec.toNat)).sum2.toNat = fold s.variant.k (plainSum2 (xs.map BitVec.toNat)) := by
  simpa [State.sum1, State.sum2] using absorbAll_sums xs (clear_withinBatch s.accs)

/-! ### What every run keeps -/

/-- A run that starts with a command starts with that command's step. -/
theorem exec_of_run_cons {i : Instr} {is : List Instr} {s t : State} {rs : List Response}
    (h : run (i :: is) s = .next (t, rs)) : ∃ u rs', exec i s = .next u ∧ run is u = .next (t, rs') := by
  cases he : exec i s with
  | fault r => cases r
  | refused r => rw [run_cons_refused is he] at h; cases h
  | next u =>
    rw [run_cons_of_next is he] at h
    cases hr : run is u with
    | fault r => cases r
    | refused r => rw [hr] at h; cases h
    | next p =>
      rw [hr] at h
      cases h
      exact ⟨u, p.2, rfl, hr⟩

/-- What every command keeps, every run keeps. -/
theorem run_keeps {P : State → Prop} (hP : ∀ {i s t}, P s → exec i s = .next t → P t) {is : List Instr} {s t : State}
    {rs : List Response} (hs : P s) (h : run is s = .next (t, rs)) : P t := by
  induction is generalizing s rs with
  | nil => cases h; exact hs
  | cons i is ih =>
    obtain ⟨u, rs', hu, hr⟩ := exec_of_run_cons h
    exact ih (hP hs hu) hr

theorem exec_hasValue {i : Instr} {s t : State} (hv : s.hasValue = true) (h : exec i s = .next t) :
    t.hasValue = true := by
  obtain ⟨x, -, -, rfl⟩ | ⟨x, -, -, rfl⟩ | ⟨-, -, rfl⟩ | ⟨-, rfl⟩ | ⟨-, -, rfl⟩ := exec_next_cases h <;> simp [hv]

/-! ### Reachable register pairs (R53) -/

/-- Registers that hold values, within their batch and in the normal form. -/
def State.Regular (s : State) : Prop := s.Inv ∧ s.NormalForm ∧ s.hasValue = true

theorem exec_regular {i : Instr} {s t : State} (hs : s.Regular) (h : exec i s = .next t) : t.Regular := by
  obtain ⟨hi, hn, hv⟩ := hs
  exact ⟨exec_inv hi h, exec_normalForm hi hn h, exec_hasValue hv h⟩

theorem resetOf_eager_regular (v : Variant) : (State.resetOf v .eager).Regular :=
  ⟨fun _ => withinBatch_eager .., fun _ => Iff.rfl, rfl⟩

/-- From a reset only pairs in the normal form are reached. -/
theorem sums_of_reaches {v : Variant} {t : State} (h : Reaches (State.resetOf v .eager) t) : t.sum1 = 0 ↔ t.sum2 = 0 := by
  obtain ⟨is, rs, -, hr⟩ := h
  obtain ⟨-, hn, hv⟩ := run_keeps exec_regular (resetOf_eager_regular v) hr
  exact hn hv

/-- Two units lead from the empty registers to any pair of nonzero patterns: `x` and `x + y = a`, then `x + a = b`. -/
theorem run_two_upd {v : Variant} {a b : Word v.k} (ha : a ≠ 0) (hb : b ≠ 0) : ∃ x y : Word v.k,
    run [.upd x.toNat, .upd y.toNat] (State.resetOf v .eager) =
      .next ({ State.resetOf v .eager with accs := .eager a b }, []) := by
  obtain ⟨x, hx⟩ := exists_ocadd_eq hb a
  obtain ⟨y, hy⟩ := exists_ocadd_eq ha x
  have hacc : (Accs.ofBuild .eager).absorbAll [x.toNat, y.toNat] = .eager a b := by
    simp only [Accs.ofBuild, Accs.absorbAll, List.foldl_cons, List.foldl_nil, unitOperand_toNat, absorb_eager, zero_ocadd,
      hy, ocadd_comm x a, hx]
  refine ⟨x, y, (run_updAll [x.toNat, y.toNat] (s := State.resetOf v .eager) rfl).trans ?_⟩
  rw [State.afterStream, resetOf_accs, hacc]

end Sys2Proof.Machine

namespace Sys2Proof.Proofs

open Sys2Proof.Machine

/-- Settles O14: the residue rule of one absorbed unit. -/
theorem updActsModuloM : Obligations.UpdActsModuloM := by
  intro s x hi hv
  have h := residues_absorb (hi hv) x
  have h1 := congrArg Prod.fst h
  refine ⟨_, exec_upd_toNat x hv, h1, (congrArg Prod.snd h).trans ?_⟩
  exact congrArg (fun r => (s.residue2 + r) % modulus s.variant.k) h1.symm

/-- Settles O15, row by row: each is a value of the adder at an end of its range. -/
theorem updCornerCases : Obligations.UpdCornerCases := by
  refine ⟨fun s a b x hv hs => ⟨_, _, exec_upd_eager x hv hs, ?_, ?_, ocadd_eq_allOnes, ocadd_eq_one, ?_, ?_, ?_,
    ocadd_eq_allOnes, ocadd_eq_one, ?_⟩, run_nil⟩
  · rintro rfl
    rw [ocadd_zero]
    exact ⟨rfl, rfl, (and_iff_right rfl).trans ocadd_eq_left_iff⟩
  · rintro rfl
    have hp := sameResidue_ocadd_allOnes a
    have hq := SameResidue.ocadd (rfl : SameResidue b b) hp
    refine ⟨hp, hq, ?_, ocadd_allOnes_eq_ite a⟩
    rw [hq, canon_ocadd, modadd_toNat _ _ (canon_lt b) (canon_lt a)]
  · rintro rfl rfl
    exact ocadd_allOnes (allOnes_ne_zero _)
  · rw [ocadd_eq_zero_iff, ocadd_eq_zero_iff, ocadd_eq_zero_iff]
    tauto
  · rintro rfl rfl
    simp only [ocadd_zero, and_self]
  · rintro rfl rfl rfl
    rw [ocadd_allOnes (allOnes_ne_zero _)]
    exact ⟨rfl, ocadd_allOnes (allOnes_ne_zero _)⟩

/-- Settles O16: the closed form from the cleared registers; the fold keeps the residue and is 0 at 0 only. -/
theorem registersFoldTheStreamSums : Obligations.RegistersFoldTheStreamSums := by
  intro s xs
  obtain ⟨h1, h2⟩ := afterStream_empty_sums s xs
  refine ⟨_, run_rst_updAll _ s, h1, h2, ?_, ?_, ?_, ?_⟩
  · exact (canon_toNat_mod (one_lt_modulus _).le _).trans (h1 ▸ fold_mod _)
  · exact (canon_toNat_mod (one_lt_modulus _).le _).trans (h2 ▸ fold_mod _)
  · rw [h1, fold_eq_zero, plainSum1_eq_zero_iff]
  · rw [h2, fold_eq_zero, plainSum2_eq_zero_iff]

/-- Settles O17 by the closed form of a stream. -/
theorem streamClosedFormFromAnyPair : Obligations.StreamClosedFormFromAnyPair := by
  intro s xs hi hv
  obtain ⟨o, h⟩ := run_updAll_of_value (xs.map BitVec.toNat) hv
  exact ⟨_, _, h, rfl, absorbAll_sums xs (hi hv)⟩

/-- Settles O18: the normal form on every run from the empty state; two units to any pair of nonzero patterns. -/
theorem reachableRegisterPairs : Obligations.ReachableRegisterPairs := by
  intro v a b
  refine ⟨⟨?_, ?_⟩, run_two_upd⟩
  · rintro ⟨t, hr, h1, h2⟩
    have h := sums_of_reaches hr
    simp only [← BitVec.toNat_inj, h1, h2] at h
    simp only [ne_eq, ← BitVec.toNat_inj]
    tauto
  · rintro (⟨rfl, rfl⟩ | ⟨ha, hb⟩)
    · exact ⟨_, ⟨[], [], by simp, rfl⟩, rfl, rfl⟩
    · obtain ⟨x, y, h⟩ := run_two_upd ha hb
      exact ⟨_, ⟨_, _, by simp [Instr.wellFormed, unitFits, toNat_le_modulus], h⟩, rfl, rfl⟩

/-- Settles O13 by the equation of UPD and the round trip of its word. -/
theorem updAddsIntoBothRegisters : Obligations.UpdAddsIntoBothRegisters :=
  ⟨fun _ _ _ x => exec_upd_eager x, fun _ x =>
    ⟨encode_upd_toNat (toNat_le_modulus x), decode_encode (decide_eq_true (toNat_le_modulus x))⟩⟩

end Sys2Proof.Proofs
end

section
/-! Proofs/Value: the number that VAL reports (O23), its range and its value after a stream (O25); the queries leave
everything but the response port as it was and see nothing of it (O24). -/

namespace Sys2Proof.Machine

/-! ### The VALUE word (R36, R55) -/

/-- `(s2 << k) | s1` loses no bit in `2k` bits. -/
theorem valueWord_toNat {k : Nat} (a b : Word k) : (valueWord a b).toNat = (b.toNat <<< k) ||| a.toNat := by
  have hpow : 2 ^ k ≤ 2 ^ (2 * k) := Nat.pow_le_pow_right two_pos (Nat.le_mul_of_pos_left k two_pos)
  have hb : b.toNat <<< k < 2 ^ (2 * k) := by
    rw [Nat.shiftLeft_eq, two_mul, pow_add]
    exact Nat.mul_lt_mul_of_pos_right b.isLt (Nat.two_pow_pos k)
  rw [valueWord, BitVec.toNat_or, BitVec.toNat_shiftLeft, BitVec.toNat_setWidth, BitVec.toNat_setWidth,
    Nat.mod_eq_of_lt (a.isLt.trans_le hpow), Nat.mod_eq_of_lt (b.isLt.trans_le hpow), Nat.mod_eq_of_lt hb]

/-- What the host reads of a VAL response: the two residues. -/
theorem valueRsp_response (s : State) :
    (s.respond s.accs.valueRsp).response = some ⟨s.residue2, s.residue1⟩ := by
  obtain ⟨hhi, hlo⟩ := valueRsp_hi_lo s.accs
  rw [respond_response, hhi, hlo]
  rfl

/-- The patterns of residue 0 (R13, R44). -/
theorem canon_toNat_eq_zero_iff {k : Nat} (a : Word k) :
    (canon a).toNat = 0 ↔ a = 0 ∨ a = BitVec.allOnes k := by
  have h0 : (0 : Word k).toNat = 0 := BitVec.toNat_zero
  rw [canon_toNat, ← BitVec.toNat_inj, ← BitVec.toNat_inj, allOnes_toNat, h0]
  split <;> omega

/-! ### The checksum of a stream (R53, R57) -/

/-- Units in range are the values of words. -/
theorem exists_words {k : Nat} {us : List Nat} (h : ∀ u ∈ us, u ≤ modulus k) :
    ∃ xs : List (Word k), xs.map BitVec.toNat = us := by
  refine ⟨us.map (BitVec.ofNat k), ?_⟩
  rw [List.map_map]
  exact (List.map_congr_left fun u hu => toNat_ofNat_of_unitFits (decide_eq_true (h u hu))).trans (List.map_id us)

/-- After a reset and a stream the residues are those of the stream's sums. -/
theorem afterStream_empty_residues (s : State) {us : List Nat} (h : ∀ u ∈ us, u ≤ modulus s.variant.k) :
    (s.empty.afterStream us).residue1 = plainSum1 us % modulus s.variant.k ∧
      (s.empty.afterStream us).residue2 = plainSum2 us % modulus s.variant.k := by
  obtain ⟨xs, rfl⟩ := exists_words h
  obtain ⟨h1, h2⟩ := afterStream_empty_sums s xs
  exact ⟨(canon_toNat_mod (one_lt_modulus _).le _).trans (h1 ▸ fold_mod _),
    (canon_toNat_mod (one_lt_modulus _).le _).trans (h2 ▸ fold_mod _)⟩

/-- The one-shot checksum (R67) responds with the residues after its stream. -/
theorem run_calc (s : State) (us : List Nat) :
    run (.rst :: (updAll us ++ [.val])) s =
      .next ((s.empty.afterStream us).respond (s.empty.afterStream us).accs.valueRsp,
        [⟨(s.empty.afterStream us).residue2, (s.empty.afterStream us).residue1⟩]) := by
  have hrsp := Option.some.inj (valueRsp_response (s.empty.afterStream us))
  rw [run_oneShot (exec_val_of_value rfl), ← hrsp]

/-! ### Queries (R56, R61) -/

/-- A query responds with a function of the accumulators that sees their residues alone, and changes nothing else. -/
theorem exec_query {i : Instr} (hq : i.isQuery = true) :
    ∃ f : ∀ k, Accs k → Rsp k, (∀ {k} {a b : Accs k}, a.SameResidues b → f k a = f k b) ∧
      ∀ s : State, s.hasValue = true → exec i s = .next (s.respond (f s.variant.k s.accs)) := by
  cases i with
  | upd x => cases hq
  | val => exact ⟨fun _ => Accs.valueRsp, Accs.SameResidues.valueRsp_eq, fun _ => exec_val_of_value⟩
  | rst => cases hq
  | chk => exact ⟨fun _ => Accs.checkRsp, Accs.SameResidues.checkRsp_eq, fun _ => exec_chk_of_value⟩

end Sys2Proof.Machine

namespace Sys2Proof.Proofs

open Sys2Proof.Machine

/-- Settles O23: the equation of VAL, the number and the halves of its word, and the decoder on the operation code 01. -/
theorem valReportsTheChecksum : Obligations.ValReportsTheChecksum :=
  ⟨fun _ hv => ⟨_, exec_val_of_value hv, valueWord_toNat _ _, valueWord_hi _ _, valueWord_lo _ _⟩,
    fun _ data => decode_of_opField_val (opField_commandWord data _), fun v => encode_toNat v.k .val⟩

/-- Settles O24: a query's response is a function of the residues, and an early fold changes neither register. -/
theorem queriesHaveNoSideEffect : Obligations.QueriesHaveNoSideEffect := by
  intro s i hq hv
  obtain ⟨f, hres, hexec⟩ := exec_query hq
  obtain ⟨e1, e2⟩ := foldByChoice_sums s.accs
  have hf : f _ s.accs = f _ s.accs.foldByChoice := hres ⟨congrArg canon e1.symm, congrArg canon e2.symm⟩
  refine ⟨⟨f _ s.accs, fun o => hexec { s with rsp := o } hv⟩, e1, e2, _, _, hexec s hv, hexec s.foldByChoice hv, ?_⟩
  rw [respond_response, hf]
  rfl

/-- Settles O25: the halves are residues, 0 exactly at the patterns 0 and `M`; after a reset, those of the stream sums. -/
theorem checksumRange : Obligations.ChecksumRange := by
  refine ⟨fun s hv => ⟨_, _, exec_val_of_value hv, valueRsp_response s, canon_lt _, canon_lt _, rfl, rfl, ?_⟩,
    fun s us h => ?_⟩
  · exact and_comm.trans (and_congr (canon_toNat_eq_zero_iff s.sum1) (canon_toNat_eq_zero_iff s.sum2))
  · obtain ⟨h1, h2⟩ := afterStream_empty_residues s h
    rw [← h1, ← h2]
    exact ⟨_, run_calc s us⟩

end Sys2Proof.Proofs
end

section
/-! Proofs/Reset: what RST writes (O26), and that nothing after it depends on what came before (O27). -/

namespace Sys2Proof.Machine

/-! ### The state RST leaves (R58, R72) -/

theorem exec_rst_of_eager {s : State} {a b : Word s.variant.k} (h : s.accs = .eager a b) :
    exec .rst s = .next { s with hasValue := true, accs := .eager 0 0, rsp := none } := by
  rw [exec_rst, State.empty, h, clear_eager]

theorem exec_rst_of_deferred {s : State} {h : Hidden s.variant.k} (hs : s.accs = .deferred h) :
    exec .rst s = .next { s with hasValue := true, accs := .deferred h.clear, rsp := none } := by
  rw [exec_rst, State.empty, hs, clear_deferred]

@[simp] theorem clear_clear {k : Nat} (a : Accs k) : a.clear.clear = a.clear := by
  cases a <;> rfl

@[simp] theorem empty_empty (s : State) : s.empty.empty = s.empty := by
  simp only [State.empty, clear_clear]

theorem empty_inv (s : State) : s.empty.Inv := fun _ => clear_withinBatch s.accs

/-! ### What follows RST (R59) -/

/-- RST does not respond, so a list that begins with it runs as its rest does from the empty state. -/
theorem run_rst_cons (is : List Instr) (s : State) : run (.rst :: is) s = run is s.empty := by
  rw [run_cons_of_next is (exec_rst s)]
  cases run is s.empty <;> rfl

/-- After RST every well-formed command list responds as the residue model does from the residues 0. -/
theorem run_rst_cons_responses {is : List Instr} (s : State) (hwf : ∀ i ∈ is, i.wellFormed s.variant.k = true) :
    ∃ t, run (.rst :: is) s = .next (t, residueRun (modulus s.variant.k) (0, 0) is) := by
  obtain ⟨-, hmodel⟩ := Proofs.onlyResiduesAreObservable
  obtain ⟨t, ht⟩ := hmodel s.empty is rfl (empty_inv s) hwf
  have hzero : (s.empty.residue1, s.empty.residue2) = (0, 0) := residues_empty s
  rw [hzero] at ht
  exact ⟨t, (run_rst_cons is s).trans ht⟩

@[simp] theorem residueCheck_zero (m : Nat) : residueCheck m 0 = 0 := by simp [residueCheck]

theorem residueRun_chk_zero (m : Nat) : residueRun m (0, 0) [.chk] = [⟨0, 0⟩] := by simp [residueRun]

/-! ### RST on the port (R59, R91) -/

theorem step_of_command_rst {s : State} {p : PortIn s.variant.k} {rest : List (PortIn s.variant.k)}
    (hi : s.inputs = p :: rest) (hr : p.rst = false) (hv : p.cmdValid = true) (hd : decode p.cmd = .rst) :
    step s = .next (s.foldByChoice.setInputs rest).empty := by
  rw [step_of_command hi hr hv, hd, exec_rst]

end Sys2Proof.Machine

namespace Sys2Proof.Proofs

open Sys2Proof.Machine

/-- Settles O26: the equation of RST in either implementation, the decoder on the operation code 10, and the word. -/
theorem rstEmptiesTheRegisters : Obligations.RstEmptiesTheRegisters :=
  ⟨fun _ _ _ => exec_rst_of_eager, fun _ _ => exec_rst_of_deferred,
    fun _ data => decode_of_opField_rst (opField_commandWord data _), fun v => encode_toNat v.k .rst⟩

/-- Settles O27: emptying twice is emptying once, the queries see the residues 0, RST on the registers drops their
patterns, and the RST command reaches the state of the hardware reset. -/
theorem rstForgetsHistory : Obligations.RstForgetsHistory := by
  refine ⟨fun s => ?_, fun s => ⟨?_, ?_⟩, fun s a b c d => ?_, fun s p q rest hp hq hv hd => ?_⟩
  · refine ⟨s.empty, run_rst_cons [] s, clear_sum1 s.accs, clear_sum2 s.accs, ?_⟩
    rw [run_rst_cons, run_rst_cons, empty_empty, run_nil]
  · exact run_rst_cons_responses s (List.forall_mem_singleton.2 rfl)
  · rw [← residueRun_chk_zero (modulus s.variant.k)]
    exact run_rst_cons_responses s (List.forall_mem_singleton.2 rfl)
  · exact (exec_rst_of_eager rfl).trans (exec_rst_of_eager rfl).symm
  · have hreset := step_of_rst (s := s.setInputs (p :: rest)) rfl hp
    have hcommand := step_of_command_rst (s := s.setInputs (q :: rest)) rfl hq hv hd
    exact hreset.trans hcommand.symm

end Sys2Proof.Proofs
end

section
/-! Proofs/CheckValues: the two check values as the solution of the two congruences that appending them to a stream has
to meet (O31), CHK by the source's algorithm and on the raw registers (O28, O30), and what appending them does, on the
same machine (O29, O32) and on a receiver (O35). -/

namespace Sys2Proof.Machine

/-! ### The check values of a pair of residues (R60, R64) -/

/-- `(C0, C1)` of the residues `(r1, r2)`, as the residue model's CHK responds them (R60). -/
def checkPair (m : Nat) (r : Nat × Nat) : Nat × Nat :=
  (residueCheck m (r.1 + r.2), residueCheck m (r.1 + residueCheck m (r.1 + r.2)))

section
variable {m : Nat} (hm : 0 < m)
include hm

/-- A check value is the residue that completes its remainder to a multiple of `M`. -/
theorem mod_eq_residueCheck_iff (t d : Nat) : d % m = residueCheck m t ↔ m ∣ t + d := by
  have ht := Nat.mod_lt t hm
  have hd := Nat.mod_lt d hm
  rw [Nat.dvd_iff_mod_eq_zero, Nat.add_mod_eq_ite, residueCheck]
  split <;> split <;> omega

theorem dvd_add_residueCheck (t : Nat) : m ∣ t + residueCheck m t :=
  (mod_eq_residueCheck_iff hm t _).1 (Nat.mod_eq_of_lt (residueCheck_lt hm t))

theorem residueCheck_eq_neg_emod (t : Nat) : (residueCheck m t : Int) = -(t : Int) % m := by
  have hlt : (residueCheck m t : Int) < m := Int.ofNat_lt.2 (residueCheck_lt hm t)
  have hdvd : (m : Int) ∣ residueCheck m t - -(t : Int) := by
    rw [sub_neg_eq_add, add_comm]
    exact_mod_cast dvd_add_residueCheck hm t
  have hmod := Int.emod_eq_emod_iff_emod_sub_eq_zero.2 (Int.emod_eq_zero_of_dvd hdvd)
  rw [← hmod, Int.emod_eq_of_lt (Int.natCast_nonneg _) hlt]

/-- The second check value is the second residue. -/
theorem checkPair_snd {r : Nat × Nat} (h : r.2 < m) : (checkPair m r).2 = r.2 := by
  have hdvd := dvd_add_residueCheck hm (r.1 + r.2)
  rw [add_right_comm] at hdvd
  rw [← Nat.mod_eq_of_lt h]
  exact ((mod_eq_residueCheck_iff hm _ _).2 hdvd).symm

theorem checkPair_lt (r : Nat × Nat) : (checkPair m r).1 < m ∧ (checkPair m r).2 < m :=
  ⟨residueCheck_lt hm _, residueCheck_lt hm _⟩

/-- Two units drive both residues to 0 exactly when they are congruent to the check values. -/
theorem residueUpdate_twice_eq_zero_iff (r : Nat × Nat) (d0 d1 : Nat) :
    residueUpdate m (residueUpdate m r d0) d1 = (0, 0) ↔
      d0 % m = (checkPair m r).1 ∧ d1 % m = (checkPair m r).2 := by
  have hsecond (h : m ∣ r.1 + d0 + d1) : m ∣ r.2 + (r.1 + d0) + (r.1 + d0 + d1) ↔ m ∣ r.1 + r.2 + d0 := by
    rw [← Nat.dvd_add_iff_left h, add_left_comm, add_assoc]
  have hcheck (h : d0 % m = (checkPair m r).1) : m ∣ r.1 + d0 + d1 ↔ d1 % m = (checkPair m r).2 := by
    have hc : d1 % m = (checkPair m r).2 ↔ m ∣ r.1 + d0 % m + d1 := h ▸ mod_eq_residueCheck_iff hm _ d1
    simp only [hc, Nat.dvd_iff_mod_eq_zero, add_right_comm r.1, Nat.add_mod_mod]
  calc residueUpdate m (residueUpdate m r d0) d1 = (0, 0)
    _ ↔ m ∣ r.1 + d0 + d1 ∧ m ∣ r.2 + (r.1 + d0) + (r.1 + d0 + d1) := by
      simp only [residueUpdate, Nat.mod_add_mod, Nat.add_mod_mod, Prod.mk.injEq, Nat.dvd_iff_mod_eq_zero]
    _ ↔ m ∣ r.1 + r.2 + d0 ∧ m ∣ r.1 + d0 + d1 := (and_congr_right hsecond).trans and_comm
    _ ↔ d0 % m = (checkPair m r).1 ∧ m ∣ r.1 + d0 + d1 :=
      and_congr_left' (mod_eq_residueCheck_iff hm _ d0).symm
    _ ↔ d0 % m = (checkPair m r).1 ∧ d1 % m = (checkPair m r).2 := and_congr_right hcheck

/-- The check values themselves do. -/
theorem residueUpdate_checkPair (r : Nat × Nat) :
    residueUpdate m (residueUpdate m r (checkPair m r).1) (checkPair m r).2 = (0, 0) := by
  obtain ⟨h0, h1⟩ := checkPair_lt hm r
  exact (residueUpdate_twice_eq_zero_iff hm r _ _).2 ⟨Nat.mod_eq_of_lt h0, Nat.mod_eq_of_lt h1⟩

/-- The check values are 0 for the checksum 0 alone. -/
theorem checkPair_eq_zero_iff {r : Nat × Nat} (h1 : r.1 < m) (h2 : r.2 < m) :
    ((checkPair m r).1 = 0 ∧ (checkPair m r).2 = 0) ↔ (r.1 = 0 ∧ r.2 = 0) := by
  have hfirst : (checkPair m r).1 = 0 ↔ m ∣ r.1 + r.2 := by
    rw [← Nat.add_zero (r.1 + r.2), ← mod_eq_residueCheck_iff hm, Nat.zero_mod]
    exact eq_comm
  rw [checkPair_snd hm h2, hfirst]
  refine and_congr_left fun h => ?_
  rw [h, Nat.add_zero]
  exact ⟨fun hdvd => Nat.eq_zero_of_dvd_of_lt hdvd h1, fun hz => hz ▸ dvd_zero m⟩

end

theorem checkPair_zero (m : Nat) : checkPair m (0, 0) = (0, 0) := by simp [checkPair]

/-! ### CHK (R60, R63) -/

/-- The check values of a state, `(C0, C1)`. -/
def State.checkValues (s : State) : Nat × Nat := checkPair (modulus s.variant.k) s.residues

theorem checkValues_lt (s : State) : s.checkValues.1 < modulus s.variant.k ∧ s.checkValues.2 < modulus s.variant.k :=
  checkPair_lt (one_lt_modulus _).le _

theorem checkValues_of_residues_zero {s : State} (h : s.residues = (0, 0)) : s.checkValues = (0, 0) := by
  rw [State.checkValues, h, checkPair_zero]

/-- What the host reads of a CHK response. -/
theorem checkRsp_response (s : State) :
    (s.respond s.accs.checkRsp).response = some ⟨s.checkValues.2, s.checkValues.1⟩ := by
  obtain ⟨hlo, hhi⟩ := checkRsp_hi_lo s.accs
  rw [hlo] at hhi
  rw [respond_response, hlo, hhi]
  rfl

/-- A run that starts with CHK responds the check values, and goes on with the same registers. -/
theorem run_chk_cons {s t : State} {is : List Instr} {rs : List Response} (hv : s.hasValue = true)
    (h : run is (s.respond s.accs.checkRsp) = .next (t, rs)) :
    run (.chk :: is) s = .next (t, ⟨s.checkValues.2, s.checkValues.1⟩ :: rs) := by
  rw [run_cons_next is (exec_chk_of_value hv) h, checkRsp_response]
  rfl

theorem canon_zero (v : Variant) : canon (0 : Word v.k) = 0 := canon_of_ne_allOnes (allOnes_ne_zero v).symm

/-- The solution of the residues is that of the registers: the adder and the complement see residues alone (R47). -/
theorem checkValue_modadd_canon {v : Variant} (a b : Word v.k) :
    checkValue (modadd (canon a) (canon b)) = canon (ocneg (ocadd a b)) := by
  rw [checkValue_eq_canon_ocneg, ← canon_ocadd]
  exact SameResidue.ocneg (canon_canon _)

/-- The datapath of CHK on the raw registers (R63). -/
theorem checkRsp_eq_raw {v : Variant} (a : Accs v.k) :
    a.checkRsp = .check (canon (ocneg (ocadd a.sum1 a.sum2)))
      (canon (ocneg (ocadd a.sum1 (canon (ocneg (ocadd a.sum1 a.sum2)))))) := by
  rw [Accs.checkRsp, check0, check1, checkValue_modadd_canon]
  nth_rw 2 [← canon_canon (ocneg (ocadd a.sum1 a.sum2))]
  rw [checkValue_modadd_canon]

/-! ### The residues and the registers after a stream (R52, R53) -/

/-- A stream acts on the residues as the source's update line, unit by unit. -/
theorem residues_afterStream {s : State} {us : List Nat} (ha : s.accs.WithinBatch)
    (h : ∀ u ∈ us, u ≤ modulus s.variant.k) :
    (s.afterStream us).residues = us.foldl (residueUpdate (modulus s.variant.k)) s.residues := by
  induction us generalizing s with
  | nil => rfl
  | cons u us ih =>
    obtain ⟨hu, hus⟩ := List.forall_mem_cons.1 h
    have hunit : (unitOperand s.variant.k u).toNat = u := toNat_ofNat_of_unitFits (decide_eq_true hu)
    have htail := ih (s := s.setAccs (s.accs.absorb (unitOperand s.variant.k u))) (absorb_withinBatch ha _) hus
    rwa [residues_absorb ha, hunit] at htail

/-- The first register is 0 after a stream only if it was and every unit is. -/
theorem absorbAll_sum1_eq_zero_iff {v : Variant} {a : Accs v.k} {us : List Nat} (ha : a.WithinBatch)
    (h : ∀ u ∈ us, u ≤ modulus v.k) : (a.absorbAll us).sum1 = 0 ↔ a.sum1 = 0 ∧ plainSum1 us = 0 := by
  obtain ⟨xs, rfl⟩ := exists_words h
  simp only [← BitVec.toNat_inj, absorbAll_sums xs ha]
  exact fold_eq_zero.trans Nat.add_eq_zero_iff

/-- VAL after a stream responds with the residues the stream leaves. -/
theorem run_updAll_val (us : List Nat) {s : State} (hv : s.hasValue = true) :
    run (updAll us ++ [.val]) s = .next ((s.afterStream us).respond (s.afterStream us).accs.valueRsp,
      [⟨(s.afterStream us).residues.2, (s.afterStream us).residues.1⟩]) := by
  obtain ⟨o, hrun⟩ := run_updAll_of_value us hv
  have hval := exec_val_of_value (s := { s with accs := s.accs.absorbAll us, rsp := o }) hv
  have hrsp := Option.some.inj (valueRsp_response (s.afterStream us))
  rw [run_append_next [.val] hrun, run_cons_next [] hval (run_nil _)]
  exact congrArg (fun r => Host.Outcome.next (_, [r])) hrsp

/-- VAL reports the checksum 0 of residues 0. -/
theorem run_updAll_val_of_residues_zero {us : List Nat} {s : State} (hv : s.hasValue = true)
    (h : (s.afterStream us).residues = (0, 0)) : run (updAll us ++ [.val]) s =
      .next ((s.afterStream us).respond (s.afterStream us).accs.valueRsp, [⟨0, 0⟩]) := by
  rw [run_updAll_val us hv, h]

/-- The registers of residue 0 in the normal form: both 0, or both all ones (R13, R53). -/
theorem sums_of_residues_zero {s : State} (hv : s.hasValue = true) (hn : s.NormalForm) (hr : s.residues = (0, 0)) :
    (s.sum1 = 0 → s.sum1 = 0 ∧ s.sum2 = 0) ∧
      (s.sum1 ≠ 0 → s.sum1 = BitVec.allOnes _ ∧ s.sum2 = BitVec.allOnes _) := by
  have h1 := (canon_toNat_eq_zero_iff s.sum1).1 (congrArg Prod.fst hr)
  have h2 := (canon_toNat_eq_zero_iff s.sum2).1 (congrArg Prod.snd hr)
  have hz := hn hv
  exact ⟨fun h => ⟨h, hz.1 h⟩, fun h => ⟨h1.resolve_left h, h2.resolve_left (h ∘ hz.2)⟩⟩

/-! ### Appending two units (R62, R64) -/

section
variable {s : State} (hi : s.Inv) (hv : s.hasValue = true)
include hi hv

/-- Two units leave the residues 0 exactly when they are congruent to the check values. -/
theorem residues_afterStream_two_eq_zero_iff {d0 d1 : Nat} (h0 : d0 ≤ modulus s.variant.k)
    (h1 : d1 ≤ modulus s.variant.k) : (s.afterStream [d0, d1]).residues = (0, 0) ↔
      (d0 % modulus s.variant.k = s.checkValues.1 ∧ d1 % modulus s.variant.k = s.checkValues.2) := by
  rw [residues_afterStream (hi hv) (by simp [h0, h1])]
  exact residueUpdate_twice_eq_zero_iff (one_lt_modulus _).le _ d0 d1

theorem residues_afterStream_checkValues :
    (s.afterStream [s.checkValues.1, s.checkValues.2]).residues = (0, 0) := by
  obtain ⟨h0, h1⟩ := checkValues_lt s
  rw [residues_afterStream (hi hv) (by simp [h0.le, h1.le])]
  exact residueUpdate_checkPair (one_lt_modulus _).le s.residues

/-- VAL responds 0 after exactly those units. -/
theorem run_two_upd_val_iff {d0 d1 : Nat} (h0 : d0 ≤ modulus s.variant.k) (h1 : d1 ≤ modulus s.variant.k) :
    (∃ u, run [.upd d0, .upd d1, .val] s = .next (u, [⟨0, 0⟩])) ↔
      (d0 % modulus s.variant.k = s.checkValues.1 ∧ d1 % modulus s.variant.k = s.checkValues.2) := by
  have hrun : run [.upd d0, .upd d1, .val] s = _ := run_updAll_val [d0, d1] hv
  rw [← residues_afterStream_two_eq_zero_iff hi hv h0 h1, hrun, Prod.ext_iff, and_comm]
  simp only [Host.Outcome.next.injEq, Prod.mk.injEq, List.cons.injEq, Response.mk.injEq, and_true, exists_eq_left']

/-- The check values leave the first register 0 only if it was: then they are 0 themselves. -/
theorem afterStream_checkValues_sum1_eq_zero_iff (hn : s.NormalForm) :
    (s.afterStream [s.checkValues.1, s.checkValues.2]).sum1 = 0 ↔ s.sum1 = 0 := by
  obtain ⟨h0, h1⟩ := checkValues_lt s
  refine (absorbAll_sum1_eq_zero_iff (hi hv) (by simp [h0.le, h1.le])).trans (and_iff_left_of_imp fun hz => ?_)
  have hres : s.residues = (0, 0) := by
    have hz1 : s.sum1 = 0 := hz
    rw [State.residues, State.residue1, State.residue2, (hn hv).1 hz1, hz1, canon_zero]
    rfl
  rw [checkValues_of_residues_zero hres]
  rfl

/-- Appending the check values drives the checksum to 0; from registers in the normal form the machine ends with both all
ones, or with both 0 where they were. -/
theorem run_append_checkValues :
    ∃ u, run [.upd s.checkValues.1, .upd s.checkValues.2, .val] s = .next (u, [⟨0, 0⟩]) ∧
      (s.NormalForm → s.sum1 = 0 → u.sum1 = 0 ∧ u.sum2 = 0) ∧
      (s.NormalForm → s.sum1 ≠ 0 → u.sum1 = BitVec.allOnes _ ∧ u.sum2 = BitVec.allOnes _) := by
  have hres := residues_afterStream_checkValues hi hv
  have hrun := run_updAll_val_of_residues_zero hv hres
  refine ⟨_, hrun, forall_and.1 fun hn => ?_⟩
  obtain ⟨-, hn', hv'⟩ := run_keeps exec_regular ⟨hi, hn, hv⟩ hrun
  obtain ⟨hzero, hones⟩ := sums_of_residues_zero hv' hn' hres
  have hsum1 := afterStream_checkValues_sum1_eq_zero_iff hi hv hn
  exact ⟨fun h => hzero (hsum1.2 h), fun h => hones (mt hsum1.1 h)⟩

end

/-! ### The empty state (R65) -/

theorem resetOf_empty (v : Variant) (b : Build v.k) : (State.resetOf v b).empty = State.resetOf v b := by
  cases b <;> rfl

/-- In the empty state the check values are 0, and appending them keeps it. -/
theorem run_chk_append_empty (s : State) : ∃ t,
    run [.chk, .upd 0, .upd 0, .val] s.empty = .next (t, [⟨0, 0⟩, ⟨0, 0⟩]) ∧ t.sum1 = 0 ∧ t.sum2 = 0 := by
  have hc : s.empty.checkValues = (0, 0) := checkValues_of_residues_zero (residues_empty s)
  have hc' : (s.empty.respond s.empty.accs.checkRsp).checkValues = (0, 0) := hc
  obtain ⟨t, happend, hzero, -⟩ :=
    run_append_checkValues (s := s.empty.respond s.empty.accs.checkRsp) (empty_inv s) rfl
  rw [hc'] at happend
  have hrun := run_chk_cons rfl happend
  rw [hc] at hrun
  exact ⟨t, hrun, hzero (empty_normalForm s) (clear_sum1 s.accs)⟩

/-! ### The one-shot sequences (R67, R68) -/

/-- From the empty state a stream leaves the residues the source's update line computes from 0. -/
theorem residues_afterStream_empty (s : State) {us : List Nat} (h : ∀ u ∈ us, u ≤ modulus s.variant.k) :
    (s.empty.afterStream us).residues = us.foldl (residueUpdate (modulus s.variant.k)) (0, 0) := by
  rw [residues_afterStream (s := s.empty) (clear_withinBatch _) h, residues_empty]

/-- A stream and its check values leave the residues 0, whichever machine of the width computed the check values. -/
theorem residues_afterStream_append_checkValues {s t : State} (hvar : t.variant = s.variant) {us : List Nat}
    (hus : ∀ u ∈ us, u ≤ modulus s.variant.k) :
    (t.empty.afterStream
      (us ++ [(s.empty.afterStream us).checkValues.1, (s.empty.afterStream us).checkValues.2])).residues = (0, 0) := by
  obtain ⟨h0, h1⟩ := checkValues_lt (s.empty.afterStream us)
  rw [residues_afterStream_empty t, hvar, List.foldl_append, State.checkValues, residues_afterStream_empty s hus]
  · exact residueUpdate_checkPair (one_lt_modulus _).le _
  · rw [hvar]
    exact List.forall_mem_append.2 ⟨hus, by simp [h0.le, h1.le]⟩

/-- CHECKVALUES responds with the check values of the state after its stream. -/
theorem run_checkValues (s : State) (us : List Nat) :
    ∃ t, run (expand (.checkValues us)) s = .next (t,
      [⟨(s.empty.afterStream us).checkValues.2, (s.empty.afterStream us).checkValues.1⟩]) := by
  have hstream := run_updAll us (s := s.empty) rfl
  rw [expand, run_rst_cons, run_append_next [.chk] hstream, run_chk_cons rfl (run_nil _)]
  exact ⟨_, rfl⟩

end Sys2Proof.Machine

namespace Sys2Proof.Proofs

open Sys2Proof.Machine

/-- Settles O28: the two check values as numbers, the decoder on the operation code 11, and the word. -/
theorem chkSolvesForTheCheckValues : Obligations.ChkSolvesForTheCheckValues :=
  ⟨fun s hv => ⟨_, _, exec_chk_of_value hv, rfl, rfl, checkRsp_hi_lo s.accs⟩,
    fun _ data => decode_of_opField_chk (opField_commandWord data _), fun v => encode_toNat v.k .chk⟩

/-- Settles O30: a check value is the complement of a sum, and the adder and the complement see residues alone. -/
theorem chkOnTheRawRegisters : Obligations.ChkOnTheRawRegisters := fun s hv => by
  rw [exec_chk_of_value hv, checkRsp_eq_raw]
  rfl

/-- Settles O29: the check values cancel both residues, and every command keeps the normal form. -/
theorem checkValuesZeroTheChecksum : Obligations.CheckValuesZeroTheChecksum := by
  intro s hi hv
  obtain ⟨u, hrun, hend⟩ := run_append_checkValues (s := s.respond s.accs.checkRsp) hi hv
  exact ⟨_, _, _, u, exec_chk_of_value hv, checkRsp_response s, hrun, hend⟩

/-- Settles O31: law by law from the congruences that the check values solve; appended units solve the same ones. -/
theorem checkValueLaws : Obligations.CheckValueLaws := by
  intro s hi hv
  have hm : 0 < modulus s.variant.k := (one_lt_modulus _).le
  have hr1 : s.residues.1 < modulus s.variant.k := canon_lt s.sum1
  have hr2 : s.residues.2 < modulus s.variant.k := canon_lt s.sum2
  obtain ⟨h0, h1⟩ := checkValues_lt s
  refine ⟨_, _, _, exec_chk_of_value hv, checkRsp_response s, h0, h1, ?_, ?_, checkPair_snd hm hr2,
    checkPair_eq_zero_iff hm hr1 hr2, fun d0 d1 => run_two_upd_val_iff hi hv⟩
  · exact_mod_cast residueCheck_eq_neg_emod hm (s.residue1 + s.residue2)
  · exact_mod_cast residueCheck_eq_neg_emod hm (s.residue1 + s.checkValues.1)

/-- Settles O32: the check values of the residues 0 are 0, in the empty state and in any other. -/
theorem checkValuesOfTheEmptyState : Obligations.CheckValuesOfTheEmptyState := by
  refine ⟨fun v b => ?_, fun s hv h1 h2 => ?_⟩
  · exact resetOf_empty v b ▸ run_chk_append_empty (State.resetOf v b)
  · have hrun := run_chk_cons hv (run_nil _)
    rw [checkValues_of_residues_zero (Prod.ext h1 h2)] at hrun
    exact ⟨_, hrun⟩

/-- Settles O35: both machines absorb the stream from the empty state, and the check values cancel its residues. -/
theorem receiverVerifiesTheStream : Obligations.ReceiverVerifiesTheStream := by
  intro sender receiver us hvar hwf
  have hus : ∀ u ∈ us, u ≤ modulus sender.variant.k := fun u hu => of_decide_eq_true (List.all_eq_true.1 hwf u hu)
  obtain ⟨t, hsend⟩ := run_checkValues sender us
  have hzero := residues_afterStream_append_checkValues hvar hus
  have hcalc := run_updAll_val_of_residues_zero rfl hzero
  exact ⟨t, _, _, _, hsend, (run_rst_cons _ receiver).trans hcalc⟩

end Sys2Proof.Proofs
end

section
/-! Proofs/Sequences: what does not change the result of a sequence: idle steps (O6), the chunks of a stream (O20), queries
among its commands (O21); the one-shot sequences CALC and CHECKVALUES (O33, O34), and NEW (O36). -/

namespace Sys2Proof.Machine

/-! ### The response port is written, never read (R19, R35) -/

theorem exec_silent (i : Instr) (s : State) : exec i s.silent = exec i s := by
  cases i <;> rfl

theorem exec_eq_of_silent_eq {s s' : State} (i : Instr) (h : s.silent = s'.silent) : exec i s = exec i s' := by
  rw [← exec_silent, h, exec_silent]

theorem stepInput_silent (s : State) (p : PortIn s.variant.k) : stepInput s.silent p = stepInput s p := by
  rw [stepInput, stepInput, exec_silent]

theorem step_silent (s : State) : step s.silent = step s := by
  cases hs : s.inputs with
  | nil => rw [step_nil hs, step_nil (s := s.silent) hs]
  | cons p rest =>
    rw [step_cons hs, step_cons (s := s.silent) hs]
    exact stepInput_silent (s.foldByChoice.setInputs rest) p

/-! ### Idle steps (R30, R66) -/

/-- The host presents the same, its idle steps left out. -/
def State.dropIdle (s : State) : State := s.setInputs (s.inputs.filter fun p => !p.isIdle)

/-- The host presents all it has: the responses in order and the final state, the last step's response port aside. -/
def runInputs (s : State) : Host.Outcome (State × List Response) Fault Refusal :=
  mapNext (fun p => (p.1.silent, p.2)) (runSteps s.inputs.length s)

theorem runInputs_nil {s : State} (h : s.inputs = []) : runInputs s = .next (s.silent, []) := by
  rw [runInputs, h]
  rfl

theorem runInputs_silent (s : State) : runInputs s.silent = runInputs s := by
  rw [runInputs, runInputs, silent_inputs]
  cases s.inputs.length with
  | zero => rfl
  | succ n => rw [runSteps, runSteps, step_silent]

section
variable {s : State} {p : PortIn s.variant.k} {rest : List (PortIn s.variant.k)} (hs : s.inputs = p :: rest)
include hs

theorem runInputs_next {t : State} (h : step s = .next t) :
    runInputs s = mapNext (fun q => (q.1, t.response.toList ++ q.2)) (runInputs t) := by
  obtain ⟨-, -, hlen⟩ := Proofs.buildNeverChanges s t h
  rw [runInputs, runInputs, hlen, hs, List.length_cons, Nat.add_sub_cancel, runSteps_succ_next _ h]
  cases runSteps rest.length t <;> rfl

theorem runInputs_refused {r : Refusal} (h : step s = .refused r) : runInputs s = .refused r := by
  rw [runInputs, hs, List.length_cons, runSteps_succ_refused _ h]
  rfl

theorem dropIdle_inputs_of_not_idle (hp : p.isIdle = false) :
    s.dropIdle.inputs = p :: rest.filter fun q => !q.isIdle := by
  change (s.inputs.filter fun q => !q.isIdle) = _
  rw [hs, List.filter_cons_of_pos (by simp [hp])]

theorem dropIdle_of_idle (hp : p.isIdle = true) : s.dropIdle = (s.setInputs rest).dropIdle := by
  have hfilter : (s.inputs.filter fun q => !q.isIdle) = rest.filter fun q => !q.isIdle := by
    rw [hs, List.filter_cons_of_neg (by simp [hp])]
  exact congrArg s.setInputs hfilter

/-- On the registers an idle step takes its input off the port and silences the response. -/
theorem step_of_isIdle (he : s.accs.params = none) (hp : p.isIdle = true) :
    step s = .next (s.setInputs rest).silent := by
  obtain ⟨a, b, hab⟩ := params_eq_none_iff.1 he
  obtain ⟨hr, hc⟩ : p.rst = false ∧ p.cmdValid = false := by simpa [PortIn.isIdle] using hp
  obtain ⟨hidle, -, -, -, hfold⟩ := Proofs.idleStepHoldsTheState s
  rw [hidle p rest hs hr hc, hfold a b hab]

end

/-- A command reads nothing of what the host presents next, and leaves it there. -/
theorem exec_dropIdle (i : Instr) (s : State) : exec i s.dropIdle = mapNext State.dropIdle (exec i s) := by
  cases i with
  | upd x => rw [exec, exec, execUpd, execUpd, apply_ite (mapNext _)]; rfl
  | val => rw [exec, exec, execVal, execVal, apply_ite (mapNext _)]; rfl
  | rst => rfl
  | chk => rw [exec, exec, execChk, execChk, apply_ite (mapNext _)]; rfl

theorem stepInput_dropIdle (s : State) (p : PortIn s.variant.k) :
    stepInput s.dropIdle p = mapNext State.dropIdle (stepInput s p) := by
  cases hr : p.rst with
  | true => rw [stepInput_rst hr, stepInput_rst (s := s.dropIdle) hr]; rfl
  | false =>
    cases hc : p.cmdValid with
    | true =>
      rw [stepInput_command hr hc, ← exec_dropIdle]
      exact stepInput_command (s := s.dropIdle) hr hc
    | false => rw [stepInput_idle hr hc, stepInput_idle (s := s.dropIdle) hr hc]; rfl

/-- A step on a command or a reset is the same step when the idle steps after it are left out. -/
theorem step_dropIdle {s : State} {p : PortIn s.variant.k} {rest : List (PortIn s.variant.k)}
    (hs : s.inputs = p :: rest) (hp : p.isIdle = false) : step s.dropIdle = mapNext State.dropIdle (step s) := by
  rw [step_cons hs, step_cons (dropIdle_inputs_of_not_idle hs hp)]
  exact stepInput_dropIdle (s.foldByChoice.setInputs rest) p

/-- On the registers the idle steps change neither the responses nor the final state. -/
theorem runInputs_dropIdle {s : State} (he : s.accs.params = none) : runInputs s.dropIdle = runInputs s := by
  induction hn : s.inputs.length generalizing s with
  | zero =>
    have hs := List.eq_nil_of_length_eq_zero hn
    rw [State.dropIdle, hs, List.filter_nil, setInputs_of_inputs hs]
  | succ n ih =>
    obtain ⟨p, rest, hs⟩ := List.exists_cons_of_length_eq_add_one hn
    have hrest : rest.length = n := by simpa [hs] using hn
    cases hp : p.isIdle with
    | true =>
      rw [dropIdle_of_idle hs hp, ih (s := s.setInputs rest) he hrest, runInputs_next hs (step_of_isIdle hs he hp),
        runInputs_silent]
      cases runInputs (s.setInputs rest) <;> rfl
    | false =>
      have hstep := step_dropIdle hs hp
      have hs' := dropIdle_inputs_of_not_idle hs hp
      cases ht : step s with
      | fault r => cases r
      | refused r =>
        rw [ht] at hstep
        rw [runInputs_refused hs ht, runInputs_refused hs' hstep]
      | next t =>
        obtain ⟨-, hpar, hlen⟩ := Proofs.buildNeverChanges s t ht
        rw [ht] at hstep
        rw [runInputs_next hs ht, runInputs_next hs' hstep, ih (hpar.trans he) (by rw [hlen, hn, Nat.add_sub_cancel])]
        rfl

/-! ### Chunks of a stream (R66) -/

theorem exec_upd_next (x : Nat) (s : State) : ∃ t, exec (.upd x) s = .next t ∧ t.response = none := by
  cases hv : s.hasValue with
  | true => exact ⟨_, exec_upd_of_value x hv, rfl⟩
  | false => exact ⟨_, exec_upd_of_no_value x hv, rfl⟩

/-- A stream completes without a response from every state, one never reset included. -/
theorem run_updAll_next (us : List Nat) (s : State) : ∃ t, run (updAll us) s = .next (t, []) := by
  induction us generalizing s with
  | nil => exact ⟨s, rfl⟩
  | cons u us ih =>
    obtain ⟨t, ht, hrsp⟩ := exec_upd_next u s
    obtain ⟨w, hw⟩ := ih t
    refine ⟨w, (run_cons_next (updAll us) ht hw).trans ?_⟩
    rw [hrsp]
    rfl

theorem updAll_append (us ws : List Nat) : updAll (us ++ ws) = updAll us ++ updAll ws := List.map_append

theorem runChunks_cons_next {c : List Nat} {s t : State} {rs : List Response} (cs : List (List Nat))
    (h : run (updAll c) s = .next (t, rs)) :
    runChunks (c :: cs) s = mapNext (fun p => (p.1, rs ++ p.2)) (runChunks cs t) := by
  rw [runChunks, expand, h]

theorem runChunks_eq_run_flatten (chunks : List (List Nat)) (s : State) :
    runChunks chunks s = run (updAll chunks.flatten) s := by
  induction chunks generalizing s with
  | nil => rfl
  | cons c cs ih =>
    obtain ⟨t, ht⟩ := run_updAll_next c s
    rw [runChunks_cons_next cs ht, List.flatten_cons, updAll_append, run_append_next _ ht, ih]

/-! ### Queries among other commands (R56, R61, R66) -/

theorem exec_of_not_query {i : Instr} {s : State} (hq : i.isQuery = false) :
    ∃ t, exec i s = .next t ∧ t.response = none := by
  cases i with
  | upd x => exact exec_upd_next x s
  | val => cases hq
  | rst => exact ⟨_, exec_rst s, rfl⟩
  | chk => cases hq

/-- Without its queries a list runs to the same end and is silent, whatever the response ports show at first. -/
theorem run_filter_not_query (is : List Instr) {s s' : State} (hv : s.hasValue = true) (hss : s.silent = s'.silent) :
    ∃ t u rs, run is s = .next (t, rs) ∧ run (is.filter fun i => !i.isQuery) s' = .next (u, []) ∧
      t.silent = u.silent := by
  induction is generalizing s s' with
  | nil => exact ⟨s, s', [], rfl, rfl, hss⟩
  | cons i is ih =>
    cases hq : i.isQuery with
    | true =>
      obtain ⟨f, -, hexec⟩ := exec_query hq
      obtain ⟨t, u, rs, ht, hu, htu⟩ := ih (s := s.respond (f _ s.accs)) hv hss
      rw [List.filter_cons_of_neg (by simp [hq])]
      exact ⟨t, u, _, run_cons_next is (hexec s hv) ht, hu, htu⟩
    | false =>
      obtain ⟨w, hw, hrsp⟩ := exec_of_not_query (s := s) hq
      obtain ⟨t, u, rs, ht, hu, htu⟩ := ih (exec_hasValue hv hw) rfl
      have hrun := run_cons_next _ ((exec_eq_of_silent_eq i hss).symm.trans hw) hu
      rw [hrsp] at hrun
      rw [List.filter_cons_of_pos (by simp [hq])]
      exact ⟨t, u, _, run_cons_next is hw ht, hrun, htu⟩

/-! ### The one-shot solver and NEW (R68, R69) -/

/-- CHECKVALUES leaves the stream in the registers, beside its response. -/
theorem run_checkValues_eq (s : State) (us : List Nat) :
    run (expand (.checkValues us)) s =
      .next ((s.empty.afterStream us).respond (s.empty.afterStream us).accs.checkRsp,
        [⟨(s.empty.afterStream us).checkValues.2, (s.empty.afterStream us).checkValues.1⟩]) := by
  have hrsp := Option.some.inj (checkRsp_response (s.empty.afterStream us))
  rw [expand, run_oneShot (exec_chk_of_value rfl), ← hrsp]

theorem afterStream_empty_inv (s : State) (us : List Nat) : (s.empty.afterStream us).Inv :=
  run_keeps exec_inv (empty_inv s) (run_updAll us (s := s.empty) rfl)

/-- The empty state holds `(0, 0)`, and both queries respond 0. -/
theorem empty_responds_zero (s : State) : ∃ u w, s.empty.sum1 = 0 ∧ s.empty.sum2 = 0 ∧
    run [.val] s.empty = .next (u, [⟨0, 0⟩]) ∧ run [.chk] s.empty = .next (w, [⟨0, 0⟩]) := by
  obtain ⟨-, hqueries, -⟩ := Proofs.rstForgetsHistory
  obtain ⟨⟨u, hu⟩, w, hw⟩ := hqueries s
  rw [run_rst_cons] at hu hw
  exact ⟨u, w, clear_sum1 s.accs, clear_sum2 s.accs, hu, hw⟩

end Sys2Proof.Machine

namespace Sys2Proof.Proofs

open Sys2Proof.Machine

/-- Settles O6, by induction on the inputs: a step on any other input is the same with the later idle steps left out. -/
theorem idleStepsMayBeInserted : Obligations.IdleStepsMayBeInserted := fun s l a b hab =>
  (runInputs_dropIdle (s := s.setInputs l) (params_eq_none_iff.2 ⟨a, b, hab⟩)).symm

/-- Settles O20, by induction on the chunks: a chunk completes without a response, and the run goes on. -/
theorem chunksDoNotMatter : Obligations.ChunksDoNotMatter := ⟨runChunks_eq_run_flatten, run_nil⟩

/-- Settles O21, by induction on the commands: a query writes the response port alone, which no command reads. -/
theorem queriesDoNotDisturbTheStream : Obligations.QueriesDoNotDisturbTheStream := fun _ is hv =>
  run_filter_not_query is hv rfl

/-- Settles O33: CALC is the reset, the stream and the VAL of O25, whose sums are 0 for no unit. -/
theorem calcIsTheOneShotChecksum : Obligations.CalcIsTheOneShotChecksum := by
  intro s us hwf
  obtain ⟨-, hsums⟩ := checksumRange
  obtain ⟨t, ht⟩ := hsums s us fun u hu => of_decide_eq_true (List.all_eq_true.1 hwf u hu)
  refine ⟨rfl, ⟨t, ht⟩, ?_⟩
  rintro rfl
  exact ⟨t, ht.trans (by simp [plainSum1, plainSum2])⟩

/-- Settles O34: CHK answers on the residues of the stream sums, and its check values cancel them when appended. -/
theorem checkValuesIsTheOneShotSolver : Obligations.CheckValuesIsTheOneShotSolver := by
  intro s us hwf
  obtain ⟨h1, h2⟩ :=
    afterStream_empty_residues s fun u hu => of_decide_eq_true (List.all_eq_true.1 hwf u hu)
  obtain ⟨u, hu, -⟩ := run_append_checkValues
    (s := (s.empty.afterStream us).respond (s.empty.afterStream us).accs.checkRsp) (afterStream_empty_inv s us) rfl
  rw [← h1, ← h2]
  exact ⟨_, _, _, u, rfl, run_checkValues_eq s us, rfl, rfl, rfl, rfl, hu⟩

/-- Settles O36: RST and the hardware reset both establish the empty state. -/
theorem newEstablishesTheZeroState : Obligations.NewEstablishesTheZeroState := by
  refine ⟨fun s => ?_, fun s p rest hs hp => ?_⟩
  · obtain ⟨u, w, hzero⟩ := empty_responds_zero s
    exact ⟨s.empty, u, w, run_rst_cons [] s, hzero⟩
  · obtain ⟨u, w, hzero⟩ := empty_responds_zero (s.foldByChoice.setInputs rest)
    exact ⟨_, u, w, step_of_rst hs hp, hzero⟩

end Sys2Proof.Proofs
end

section
/-! Proofs/Deferred: the deferred machine behind the port: its steps keep the batch bound (O47, O48, O49), do what R72 and R73
say (O45, O46), and are those of the architectural machine on the registers it presents (O50, O51). -/

namespace Sys2Proof.Machine

/-! ### The batch bound at reset and under a step (R74, R77) -/

theorem resetOf_inv (v : Variant) (b : Build v.k) : (State.resetOf v b).Inv := by
  rw [← resetOf_empty]
  exact empty_inv _

theorem step_inv {s t : State} (hi : s.Inv) (h : step s = .next t) : t.Inv := by
  have hi' := foldByChoice_inv hi
  obtain ⟨-, rfl⟩ | ⟨p, rest, -, ⟨-, rfl⟩ | ⟨-, -, he⟩ | ⟨-, -, rfl⟩⟩ := step_next_cases h
  · exact hi'
  · exact empty_inv (s.foldByChoice.setInputs rest)
  · exact exec_inv (s := s.foldByChoice.setInputs rest) hi' he
  · exact hi'

/-! ### The architectural machine behind an implementation (R18, R76) -/

/-- UPD on the registers an implementation presents gives the registers it presents after UPD. -/
theorem absorb_registers {v : Variant} {a : Accs v.k} (ha : a.WithinBatch) (x : Word v.k) :
    (Accs.eager a.sum1 a.sum2).absorb x = .eager (a.absorb x).sum1 (a.absorb x).sum2 := by
  obtain ⟨e1, e2⟩ := absorb_sums ha x
  rw [absorb_eager, e1, e2]

theorem foldByChoice_registers {v : Variant} (a : Accs v.k) :
    Accs.eager a.sum1 a.sum2 = .eager a.foldByChoice.sum1 a.foldByChoice.sum2 := by
  obtain ⟨e1, e2⟩ := foldByChoice_sums a
  rw [e1, e2]

theorem architectural_empty (s : State) : s.empty.architectural = s.architectural.empty := by
  rw [State.architectural, State.sum1, State.sum2, empty_accs, clear_sum1, clear_sum2]
  rfl

/-- A command cannot tell an implementation within its batch from the architectural machine. -/
theorem exec_architectural (i : Instr) {s : State} (hi : s.Inv) :
    exec i s.architectural = mapNext State.architectural (exec i s) := by
  cases i with
  | upd x =>
    cases hv : s.hasValue with
    | true =>
      rw [exec_upd_of_value x hv, exec_upd_of_value (s := s.architectural) x hv]
      exact congrArg (fun a => Host.Outcome.next (s.setAccs a).silent) (absorb_registers (hi hv) _)
    | false => rw [exec_upd_of_no_value x hv, exec_upd_of_no_value (s := s.architectural) x hv]; rfl
  | val =>
    cases hv : s.hasValue with
    | true => rw [exec_val_of_value hv, exec_val_of_value (s := s.architectural) hv]; rfl
    | false => rw [exec_val_of_no_value hv, exec_val_of_no_value (s := s.architectural) hv]; rfl
  | rst => exact congrArg _ (architectural_empty s).symm
  | chk =>
    cases hv : s.hasValue with
    | true => rw [exec_chk_of_value hv, exec_chk_of_value (s := s.architectural) hv]; rfl
    | false => rw [exec_chk_of_no_value hv, exec_chk_of_no_value (s := s.architectural) hv]; rfl

theorem stepInput_architectural {s : State} (hi : s.Inv) (p : PortIn s.variant.k) :
    stepInput s.architectural p = mapNext State.architectural (stepInput s p) := by
  cases hr : p.rst with
  | true =>
    rw [stepInput_rst hr, stepInput_rst (s := s.architectural) hr]
    exact congrArg _ (architectural_empty s).symm
  | false =>
    cases hc : p.cmdValid with
    | true =>
      rw [stepInput_command hr hc, ← exec_architectural _ hi]
      exact stepInput_command (s := s.architectural) hr hc
    | false => rw [stepInput_idle hr hc, stepInput_idle (s := s.architectural) hr hc]; rfl

/-- One step, whatever is on the port: the early fold shows in no register, and the input acts on the registers. -/
theorem step_architectural {s : State} (hi : s.Inv) :
    step s.architectural = mapNext State.architectural (step s) := by
  have hfold := foldByChoice_registers s.accs
  cases hs : s.inputs with
  | nil =>
    rw [step_nil hs, step_nil (s := s.architectural) hs]
    exact congrArg (fun a => Host.Outcome.next (s.setAccs a).silent) hfold
  | cons p rest =>
    rw [step_cons hs, step_cons (s := s.architectural) hs]
    exact (congrArg (fun a => stepInput ((s.setInputs rest).setAccs a) p) hfold).trans
      (stepInput_architectural (s := s.foldByChoice.setInputs rest) (foldByChoice_inv hi) p)

/-- Any number of steps, from every state within its batch: the same registers and the same responses, or both refuse. -/
theorem runSteps_architectural (n : Nat) {s : State} (hi : s.Inv) :
    runSteps n s.architectural = mapNext (fun p => (p.1.architectural, p.2)) (runSteps n s) := by
  induction n generalizing s with
  | zero => rfl
  | succ n ih =>
    have hstep := step_architectural hi
    cases ht : step s with
    | fault r => cases r
    | refused r =>
      rw [ht] at hstep
      rw [runSteps_succ_refused n ht, runSteps_succ_refused n hstep]
      rfl
    | next t =>
      rw [ht] at hstep
      rw [runSteps_succ_next n ht, runSteps_succ_next n hstep, ih (step_inv hi ht)]
      cases runSteps n t <;> rfl

/-! ### Once the registers hold values every step answers (R80) -/

theorem exec_next_of_value (i : Instr) {s : State} (hv : s.hasValue = true) :
    ∃ t, exec i s = .next t ∧ t.hasValue = true := by
  suffices h : ∃ t, exec i s = .next t by
    obtain ⟨t, ht⟩ := h
    exact ⟨t, ht, exec_hasValue hv ht⟩
  cases hq : i.isQuery with
  | true =>
    obtain ⟨f, -, hexec⟩ := exec_query hq
    exact ⟨_, hexec s hv⟩
  | false =>
    obtain ⟨t, ht, -⟩ := exec_of_not_query (s := s) hq
    exact ⟨t, ht⟩

theorem step_next_of_value {s : State} (hv : s.hasValue = true) : ∃ t, step s = .next t ∧ t.hasValue = true := by
  cases hs : s.inputs with
  | nil => exact ⟨_, step_nil hs, hv⟩
  | cons p rest =>
    cases hr : p.rst with
    | true => exact ⟨_, step_of_rst hs hr, rfl⟩
    | false =>
      cases hc : p.cmdValid with
      | true =>
        rw [step_of_command hs hr hc]
        exact exec_next_of_value _ (s := s.foldByChoice.setInputs rest) hv
      | false => exact ⟨_, step_of_idle hs hr hc, hv⟩

theorem runSteps_next_of_value (n : Nat) {s : State} (hv : s.hasValue = true) :
    ∃ t rs, runSteps n s = .next (t, rs) := by
  induction n generalizing s with
  | zero => exact ⟨s, [], rfl⟩
  | succ n ih =>
    obtain ⟨t, ht, hvt⟩ := step_next_of_value hv
    obtain ⟨u, rs, hu⟩ := ih hvt
    exact ⟨u, t.response.toList ++ rs, by rw [runSteps_succ_next n ht, hu]; rfl⟩

theorem ofBuild_registers {k : Nat} (b : Build k) :
    Accs.eager (Accs.ofBuild b).sum1 (Accs.ofBuild b).sum2 = .ofBuild .eager := by
  cases b <;> rfl

/-- Behind every build stands the same machine after reset, whatever the host then presents. -/
theorem architectural_resetOf (v : Variant) (b : Build v.k) (l : List (PortIn v.k)) :
    ((State.resetOf v b).setInputs l).architectural = (State.resetOf v .eager).setInputs l :=
  congrArg ((State.resetOf v b).setInputs l).setAccs (ofBuild_registers b)

/-! ### The deferred machine's own steps (R72) -/

theorem foldWhenFull_of_ne {k : Nat} {h : Hidden k} (hne : h.cnt ≠ h.batch.N) : h.foldWhenFull = h := if_neg hne

theorem foldWhenFull_of_eq {k : Nat} {h : Hidden k} (heq : h.cnt = h.batch.N) : h.foldWhenFull = h.foldBoth := if_pos heq

theorem exec_upd_deferred {s : State} {h : Hidden s.variant.k} (x : Word s.variant.k) (hv : s.hasValue = true)
    (hs : s.accs = .deferred h) :
    exec (.upd x.toNat) s = .next (s.setAccs (.deferred (h.foldWhenFull.addUnit x))).silent := by
  rw [exec_upd_toNat x hv, hs, absorb_deferred, Hidden.absorb]

theorem foldByChoice_of_nil {k : Nat} {h : Hidden k} (hc : h.foldChoices = []) : h.foldByChoice = h := by
  rw [Hidden.foldByChoice, hc]

theorem foldByChoice_of_true {k : Nat} {h : Hidden k} {rest : List Bool} (hc : h.foldChoices = true :: rest) :
    h.foldByChoice = { h.foldBoth with foldChoices := rest } := by
  rw [Hidden.foldByChoice, hc]

theorem foldByChoice_of_false {k : Nat} {h : Hidden k} {rest : List Bool} (hc : h.foldChoices = false :: rest) :
    h.foldByChoice = { h with foldChoices := rest } := by
  rw [Hidden.foldByChoice, hc]

/-- A reset forgets whether its step folded early. -/
theorem foldByChoice_clear {k : Nat} (h : Hidden k) :
    h.foldByChoice.clear = { h with acc1 := 0, acc2 := 0, cnt := 0, foldChoices := h.foldChoices.tail } := by
  obtain e | e := foldByChoice_spec h <;> rw [e] <;> rfl

theorem step_rst_deferred {s : State} {h : Hidden s.variant.k} {p : PortIn s.variant.k} {rest : List (PortIn s.variant.k)}
    (hs : s.accs = .deferred h) (hi : s.inputs = p :: rest) (hp : p.rst = true) :
    step s = .next { s with
      hasValue := true, accs := .deferred h.foldByChoice.clear, inputs := rest, rsp := none } := by
  rw [step_of_rst hi hp, State.empty, setInputs_accs, foldByChoice_accs, hs, foldByChoice_deferred, clear_deferred]

/-! ### Queries on the deferred machine (R73) -/

theorem exec_val_deferred {s : State} {h : Hidden s.variant.k} (hv : s.hasValue = true) (hs : s.accs = .deferred h) :
    exec .val s = .next (s.respond (Accs.deferred h).valueRsp) := by
  rw [exec_val_of_value hv, hs]

theorem exec_chk_deferred {s : State} {h : Hidden s.variant.k} (hv : s.hasValue = true) (hs : s.accs = .deferred h) :
    exec .chk s = .next (s.respond (Accs.deferred h).checkRsp) := by
  rw [exec_chk_of_value hv, hs]

theorem foldBoth_sameResidues {v : Variant} (h : Hidden v.k) :
    (Accs.deferred h.foldBoth).SameResidues (.deferred h) := by
  obtain ⟨e1, e2⟩ := foldBoth_sums h
  exact ⟨congrArg canon e1, congrArg canon e2⟩

end Sys2Proof.Machine

namespace Sys2Proof.Proofs

open Sys2Proof.Machine

/-- Settles O48, by the cases of a step: folding starts a batch, UPD adds one unit to a batch with room, a reset clears. -/
theorem batchBoundIsKept : Obligations.BatchBoundIsKept := fun _ _ => step_inv

/-- Settles O50, by the cases of the port input and of the command: on the folds each is the architectural one. -/
theorem deferredStepRefinesTheArchitecture : Obligations.DeferredStepRefinesTheArchitecture :=
  fun _ => step_architectural

/-- Settles O51, by induction on the number of steps, each of which answers and keeps the batch bound. -/
theorem deferredRunRefinesTheArchitecture : Obligations.DeferredRunRefinesTheArchitecture := by
  intro v batch choices l n
  obtain ⟨d, rs, hd⟩ := runSteps_next_of_value n (s := (State.resetOf v (.deferred batch choices)).setInputs l) rfl
  have he := runSteps_architectural n (s := (State.resetOf v (.deferred batch choices)).setInputs l)
    (resetOf_inv v (.deferred batch choices))
  rw [hd, architectural_resetOf] at he
  exact ⟨d, d.architectural, rs, hd, he, rfl, rfl⟩

/-- Settles O47: the reset state is an empty one. -/
theorem batchBoundHoldsAtReset : Obligations.BatchBoundHoldsAtReset := resetOf_inv

/-- Settles O49: the mandatory fold leaves room for a unit, and a batch with room has no carry out of `A` bits. -/
theorem wideAccumulatorsNeverOverflow : Obligations.WideAccumulatorsNeverOverflow := by
  intro v h x hw
  obtain ⟨hw', hlt⟩ := foldWhenFull_withinBatch hw
  obtain ⟨e1, e2⟩ := addUnit_acc hw' hlt x
  have hA := (h.foldWhenFull.addUnit x).acc2.isLt
  rw [e2] at hA
  have hb := foldWhenFull_batch h
  exact ⟨hb ▸ hA, e1, e2, hb ▸ hlt⟩

/-- Settles O46: a query reads the folds, which folding again leaves as they are. -/
theorem deferredQueriesFoldFirst : Obligations.DeferredQueriesFoldFirst := by
  intro s h hv hs
  have hfold := foldBoth_sameResidues h
  refine ⟨h.sum1, h.sum2, hidden_sum1_toNat _ h, hidden_sum2_toNat _ h, exec_val_deferred hv hs, exec_chk_deferred hv hs,
    ?_, ?_⟩
  · rw [exec_val_deferred (s := s.setAccs (.deferred h.foldBoth)) hv rfl, hfold.valueRsp_eq]
    rfl
  · rw [exec_chk_deferred (s := s.setAccs (.deferred h.foldBoth)) hv rfl, hfold.checkRsp_eq]
    rfl

/-- Settles O45: UPD by whether the batch is full, the two resets by the cleared accumulators, the early fold by the list. -/
theorem deferredMachineSteps : Obligations.DeferredMachineSteps := by
  refine ⟨fun s h x hv hs => ⟨fun hne => ?_, fun heq => ?_⟩, fun s h hs => ⟨exec_rst_of_deferred hs, fun p rest hi hp => ?_⟩,
    fun v h rest => ⟨foldByChoice_of_true, foldByChoice_of_false, foldByChoice_of_nil⟩⟩
  · rw [exec_upd_deferred x hv hs, foldWhenFull_of_ne hne]
    rfl
  · rw [exec_upd_deferred x hv hs, foldWhenFull_of_eq heq]
    rfl
  · rw [step_rst_deferred hs hi hp, foldByChoice_clear]

end Sys2Proof.Proofs
end

section
/-! Proofs/BatchBound: the sums of one batch and their exact bounds (O52), `Nmax` as the largest batch within them (O53), and
its table (O54). -/

namespace Sys2Proof

/-- The accumulators of a legal build are at least as wide as a unit (R71). -/
theorem Batch.width_le {k : Nat} (b : Batch k) : k ≤ b.A := by
  have hlt := Machine.modulus_lt_accumulator b
  have hM := modulus_add_one k
  exact (Nat.pow_le_pow_iff_right one_lt_two).1 (by omega : 2 ^ k ≤ 2 ^ b.A)

end Sys2Proof

namespace Sys2Proof.Machine

/-! ### One batch in plain numbers (R74) -/

/-- A batch without folds: each unit enters the first sum once; the second takes the start of the first with every unit, and
the units as the stream sum of R53 does. -/
theorem plainBatch_eq (a b : Nat) (us : List Nat) :
    plainBatch (a, b) us = (a + plainSum1 us, b + us.length * a + plainSum2 us) := by
  induction us generalizing a b with
  | nil => simp [plainBatch, plainSum1, plainSum2]
  | cons x xs ih =>
    rw [plainBatch, ih, plainSum1, plainSum1, plainSum2, List.sum_cons, List.length_cons, Nat.add_assoc]
    congr 1
    ring

/-- `M` times a triangular number, one row further. -/
theorem triangle_succ (m n : Nat) : m * (n + 1) * (n + 2) / 2 = m * n * (n + 1) / 2 + (n + 1) * m := by
  rw [← Nat.add_mul_div_right _ _ two_pos]
  congr 1
  ring

theorem plainSum1_le {m : Nat} {us : List Nat} (h : ∀ u ∈ us, u ≤ m) : plainSum1 us ≤ us.length * m :=
  List.sum_le_card_nsmul us m h

theorem plainSum2_le {m : Nat} {us : List Nat} (h : ∀ u ∈ us, u ≤ m) :
    plainSum2 us ≤ m * us.length * (us.length + 1) / 2 := by
  induction us with
  | nil => exact Nat.zero_le _
  | cons x xs ih =>
    obtain ⟨hx, hxs⟩ := List.forall_mem_cons.1 h
    rw [plainSum2, List.length_cons, triangle_succ, Nat.add_comm]
    exact Nat.add_le_add (ih hxs) (Nat.mul_le_mul_left _ hx)

theorem plainSum1_replicate (m n : Nat) : plainSum1 (List.replicate n m) = n * m := List.sum_replicate_nat

theorem plainSum2_replicate (m n : Nat) : plainSum2 (List.replicate n m) = m * n * (n + 1) / 2 := by
  induction n with
  | zero => simp [plainSum2]
  | succ n ih => rw [List.replicate_succ, plainSum2, List.length_replicate, ih, triangle_succ, Nat.add_comm]

theorem plainBatch_le {m : Nat} (a b : Nat) {us : List Nat} (h : ∀ u ∈ us, u ≤ m) :
    (plainBatch (a, b) us).1 ≤ a + us.length * m ∧
      (plainBatch (a, b) us).2 ≤ b + us.length * a + m * us.length * (us.length + 1) / 2 := by
  rw [plainBatch_eq]
  exact ⟨Nat.add_le_add_left (plainSum1_le h) _, Nat.add_le_add_left (plainSum2_le h) _⟩

/-- The bounds are attained by the largest units. -/
theorem plainBatch_replicate (a b m n : Nat) :
    plainBatch (a, b) (List.replicate n m) = (a + n * m, b + n * a + m * n * (n + 1) / 2) := by
  rw [plainBatch_eq, plainSum1_replicate, plainSum2_replicate, List.length_replicate]

/-- The bounds from the folded start `(M, M)`, where every start value is the largest. -/
theorem folded_start_bounds (m n : Nat) :
    m + n * m = (n + 1) * m ∧ m + n * m + m * n * (n + 1) / 2 = m * (n + 1) * (n + 2) / 2 := by
  have h : m + n * m = (n + 1) * m := by ring
  exact ⟨h, by rw [h, triangle_succ, Nat.add_comm]⟩

/-! ### The search for `Nmax` (R74) -/

theorem batchFits_iff {A k n : Nat} :
    batchFits A k n = true ↔ modulus k * (n + 1) * (n + 2) / 2 ≤ 2 ^ A - 1 := decide_eq_true_iff

/-- A batch within a safe one is safe. -/
theorem batchFits_of_le {A k m n : Nat} (h : m ≤ n) (hn : batchFits A k n = true) : batchFits A k m = true :=
  batchFits_iff.2 ((batchBound_mono (modulus k) h).trans (batchFits_iff.1 hn))

/-- The second sum of a batch is at least its number of units. -/
theorem lt_of_batchFits {v : Variant} {A n : Nat} (h : batchFits A v.k n = true) : n < 2 ^ A := by
  have hle := batchFits_iff.1 h
  have hsucc := triangle_succ (modulus v.k) n
  have hmul := Nat.le_mul_of_pos_right (n + 1) (one_lt_modulus v).le
  have hpow := Nat.two_pow_pos A
  omega

/-- The bit search above `n` stays below `n + 2 ^ bits`, and decides by its result which batches in between are safe. -/
theorem nmaxFrom_spec (A k bits n : Nat) :
    n ≤ nmaxFrom A k bits n ∧ nmaxFrom A k bits n < n + 2 ^ bits ∧
      ∀ m, n < m → m < n + 2 ^ bits → (batchFits A k m = true ↔ m ≤ nmaxFrom A k bits n) := by
  induction bits generalizing n with
  | zero => exact ⟨le_rfl, Nat.lt_succ_self n, fun m h1 h2 => absurd h1 (Nat.not_lt.2 (Nat.le_of_lt_succ h2))⟩
  | succ bits ih =>
    rw [nmaxFrom, pow_succ]
    split
    case isTrue hfit =>
      obtain ⟨hlo, hhi, hmid⟩ := ih (n + 2 ^ bits)
      refine ⟨by omega, by omega, fun m h1 h2 => ?_⟩
      by_cases hm : m ≤ n + 2 ^ bits
      · exact iff_of_true (batchFits_of_le hm hfit) (hm.trans hlo)
      · exact hmid m (by omega) (by omega)
    case isFalse hfit =>
      obtain ⟨hlo, hhi, hmid⟩ := ih n
      refine ⟨hlo, by omega, fun m h1 h2 => ?_⟩
      by_cases hm : m < n + 2 ^ bits
      · exact hmid m h1 hm
      · exact iff_of_false (fun h => hfit (batchFits_of_le (by omega) h)) (by omega)

/-- `Nmax` is the largest safe batch (R74). -/
theorem batchFits_iff_le_nmax {v : Variant} {A n : Nat} (hn : 1 ≤ n) : batchFits A v.k n = true ↔ n ≤ nmax A v.k := by
  obtain ⟨-, hhi, hmid⟩ := nmaxFrom_spec A v.k A 0
  rw [Nat.zero_add] at hhi hmid
  exact ⟨fun h => (hmid n hn (lt_of_batchFits h)).1 h, fun h => (hmid n hn (h.trans_lt hhi)).2 h⟩

/-- What is built is what is legal, the others are rejected (R77). -/
theorem batch_build_isSome_iff {k A N : Nat} :
    (Batch.build k A N).isSome = true ↔ 1 ≤ N ∧ batchFits A k N = true := by
  rw [← decide_eq_true_iff (p := 1 ≤ N), ← Bool.and_eq_true, ← batchLegal, Batch.build]
  split <;> simp [*]

/-! ### The edges of the table (R75) -/

/-- Accumulators as wide as a unit hold folded values: the empty batch is safe. -/
theorem batchFits_zero {A k : Nat} (hA : k ≤ A) : batchFits A k 0 = true := by
  refine batchFits_iff.2 ?_
  have hpow := Nat.pow_le_pow_right two_pos hA
  rw [modulus]
  omega

/-- `Nmax` by its two edges: that many units are safe, one more is not. -/
theorem nmax_eq_iff {v : Variant} {A n : Nat} (hA : v.k ≤ A) :
    nmax A v.k = n ↔ batchFits A v.k n = true ∧ batchFits A v.k (n + 1) = false := by
  have hfit : ∀ m, batchFits A v.k m = true ↔ m ≤ nmax A v.k
    | 0 => iff_of_true (batchFits_zero hA) (Nat.zero_le _)
    | m + 1 => batchFits_iff_le_nmax (Nat.succ_pos m)
  rw [← Bool.not_eq_true, hfit, hfit]
  omega

theorem nmax_of_edges (v : Variant) {A n : Nat}
    (h : v.k ≤ A ∧ batchFits A v.k n = true ∧ batchFits A v.k (n + 1) = false) : nmax A v.k = n := by
  obtain ⟨hA, hedges⟩ := h
  exact (nmax_eq_iff hA).2 hedges

/-- The edges as R75 writes them, for rows of one variant whose accumulators hold a unit. -/
theorem nmax_edges (v : Variant) {rows : List (Nat × Nat)} (h : ∀ row ∈ rows, v.k ≤ row.1 ∧ row.2 = v.k) :
    ∀ row ∈ rows,
      modulus row.2 * (nmax row.1 row.2 + 1) * (nmax row.1 row.2 + 2) / 2 ≤ 2 ^ row.1 - 1 ∧
      2 ^ row.1 - 1 < modulus row.2 * (nmax row.1 row.2 + 1 + 1) * (nmax row.1 row.2 + 1 + 2) / 2 := by
  intro row hrow
  obtain ⟨hA, hk⟩ := h row hrow
  rw [hk]
  obtain ⟨hfit, hover⟩ := (nmax_eq_iff hA).1 rfl
  exact ⟨batchFits_iff.1 hfit, Nat.lt_of_not_le (of_decide_eq_false hover)⟩

end Sys2Proof.Machine

namespace Sys2Proof.Proofs

open Sys2Proof.Machine

/-- Settles O52: the closed form of a batch, bounded unit by unit; the batch of largest units attains the bounds, so that
it decides whether any batch can overflow. -/
theorem batchBoundIsExact : Obligations.BatchBoundIsExact := by
  intro v A n
  obtain ⟨e1, e2⟩ := folded_start_bounds (modulus v.k) n
  have hmax := plainBatch_replicate (modulus v.k) (modulus v.k) (modulus v.k) n
  rw [e2, e1] at hmax
  have hfolded : ∀ us : List Nat, us.length = n → (∀ u ∈ us, u ≤ modulus v.k) →
      (plainBatch (modulus v.k, modulus v.k) us).1 ≤ (n + 1) * modulus v.k ∧
      (plainBatch (modulus v.k, modulus v.k) us).2 ≤ modulus v.k * (n + 1) * (n + 2) / 2 := by
    rintro us rfl h
    rw [← e2, ← e1]
    exact plainBatch_le _ _ h
  refine ⟨?_, hfolded, congrArg Prod.fst hmax, congrArg Prod.snd hmax, fun h => ?_, fun hb us hn h => ?_⟩
  · rintro b1 b2 us rfl h
    exact plainBatch_le b1 b2 h
  · have hworst := h (List.replicate n (modulus v.k)) List.length_replicate fun u hu => (List.eq_of_mem_replicate hu).le
    rwa [hmax] at hworst
  · obtain ⟨-, h2⟩ := hfolded us hn h
    exact h2.trans hb

/-- Settles O53: the bit search finds the edge of a condition that only gets harder with the size of the batch. -/
theorem nmaxIsTheLargestSafeBatch : Obligations.NmaxIsTheLargestSafeBatch := fun _ _ =>
  ⟨fun _ hn => batchFits_iff.symm.trans (batchFits_iff_le_nmax hn),
    fun _ => batch_build_isSome_iff.trans (and_congr_right batchFits_iff_le_nmax), Batch.width_le⟩

/-- Settles O54: each `Nmax` by its two edges, which every row of a variant has. -/
theorem nmaxTable : Obligations.NmaxTable := by
  refine ⟨nmax_of_edges .fletcher16 ?_, nmax_of_edges .fletcher16 ?_, nmax_of_edges .fletcher16 ?_,
    nmax_of_edges .fletcher16 ?_, nmax_of_edges .fletcher16 ?_, nmax_of_edges .fletcher16 ?_,
    nmax_of_edges .fletcher32 ?_, nmax_of_edges .fletcher32 ?_, nmax_of_edges .fletcher32 ?_,
    nmax_of_edges .fletcher32 ?_, nmax_of_edges .fletcher32 ?_,
    nmax_of_edges .fletcher64 ?_, nmax_of_edges .fletcher64 ?_, nmax_of_edges .fletcher64 ?_,
    nmax_of_edges .fletcher64 ?_, ?_, ?_, ?_, ?_, ?_, ?_, ?_, ?_, ?_, ?_, ?_,
    List.forall_mem_append.2 ⟨List.forall_mem_append.2 ⟨nmax_edges .fletcher16 ?_, nmax_edges .fletcher32 ?_⟩,
      nmax_edges .fletcher64 ?_⟩⟩
  all_goals decide

end Sys2Proof.Proofs
end

section
/-! Proofs/Totality: hardware reset wins (O2), the machine right after reset (O7) and before its first one (O8), one reset is
enough (O9), and every command completes (O10). -/

namespace Sys2Proof.Machine

/-! ### Hardware reset (R84, R91) -/

section
variable {s : State} {p : PortIn s.variant.k} {rest : List (PortIn s.variant.k)}

/-- A hardware reset empties every implementation, and its step gives no response. -/
theorem step_of_rst_empties (hi : s.inputs = p :: rest) (hp : p.rst = true) :
    ∃ t, step s = .next t ∧ t.hasValue = true ∧ t.sum1 = 0 ∧ t.sum2 = 0 ∧ t.rspValid = false :=
  ⟨_, step_of_rst hi hp, rfl, clear_sum1 _, clear_sum2 _, rfl⟩

theorem step_rst_eager {a b : Word s.variant.k} (hs : s.accs = .eager a b) (hi : s.inputs = p :: rest)
    (hp : p.rst = true) :
    step s = .next { s with hasValue := true, accs := .eager 0 0, inputs := rest, rsp := none } := by
  rw [step_of_rst hi hp, State.empty, setInputs_accs, foldByChoice_accs, hs, foldByChoice_eager, clear_eager]

end

theorem runSteps_one_next {s t : State} (h : step s = .next t) : runSteps 1 s = .next (t, t.response.toList) := by
  rw [runSteps_succ_next 0 h, runSteps, mapNext, List.append_nil]

/-! ### Once the registers hold values every command list runs to its end (R80, R93) -/

theorem run_next_of_value (is : List Instr) {s : State} (hv : s.hasValue = true) :
    ∃ t rs, run is s = .next (t, rs) ∧ t.hasValue = true := by
  induction is generalizing s with
  | nil => exact ⟨s, [], rfl, hv⟩
  | cons i is ih =>
    obtain ⟨u, hu, hvu⟩ := exec_next_of_value i hv
    obtain ⟨t, rs, ht, hvt⟩ := ih hvu
    exact ⟨t, _, run_cons_next is hu ht, hvt⟩

end Sys2Proof.Machine

namespace Sys2Proof.Proofs

open Sys2Proof.Machine

/-- Settles O10: exec, step and, by induction on the command list, run answer on registers that hold values; no fault
exists. -/
theorem everyCommandCompletes : Obligations.EveryCommandCompletes :=
  ⟨fun i _ => exec_next_of_value i, fun _ => step_next_of_value, fun is _ => run_next_of_value is, fun _ f => nomatch f⟩

/-- Settles O9: a list that begins with RST runs as its rest does from the empty state, which holds values and, on the
registers, nothing of what lay there before. -/
theorem oneResetIsEnough : Obligations.OneResetIsEnough := by
  refine ⟨fun v accs is => ?_, fun v a b c d is => ?_⟩
  · rw [run_rst_cons]
    exact run_next_of_value is rfl
  · have hempty : (State.powerUp v (.eager a b)).empty = (State.powerUp v (.eager c d)).empty := rfl
    rw [run_rst_cons, run_rst_cons, hempty]

/-- Settles O2, by the equation of a step with `rst = 1`, in which the command on the port does not occur; on the registers
a second such step meets the cleared ones. -/
theorem hardwareResetWins : Obligations.HardwareResetWins := by
  refine ⟨fun s p rest hi hp => ⟨fun a b hs => step_rst_eager hs hi hp, step_of_rst_empties hi hp⟩,
    fun s p q rest hp hq => ?_, fun s p q rest a b hs hp hq => ?_⟩
  · have hstep := step_of_rst (s := s.setInputs (p :: rest)) rfl hp
    exact hstep.trans (step_of_rst (s := s.setInputs (q :: rest)) rfl hq).symm
  · have hfirst := step_rst_eager (s := s.setInputs (p :: q :: rest)) hs rfl hp
    have hsecond := step_rst_eager (s := { s with hasValue := true, accs := .eager 0 0, inputs := q :: rest, rsp := none })
      rfl rfl hq
    have honce := step_rst_eager (s := s.setInputs (q :: rest)) hs rfl hq
    rw [runSteps_succ_next 1 hfirst, runSteps_one_next hsecond, runSteps_one_next honce]
    rfl

/-- Settles O7: the reset state is an empty one, and both queries respond 0 there. -/
theorem resetStateIsEmpty : Obligations.ResetStateIsEmpty := by
  intro v b
  obtain ⟨t, u, h1, h2, hval, hchk⟩ := empty_responds_zero (State.resetOf v b)
  rw [resetOf_empty] at h1 h2 hval hchk
  refine ⟨h1, h2, rfl, ?_, ?_, ⟨t, hval⟩, u, hchk⟩
  · rintro rfl
    rfl
  · rintro batch choices rfl
    rfl

/-- Settles O8: the equations of the commands on registers without value; RST and the hardware reset empty any state. -/
theorem noValueBeforeTheFirstReset : Obligations.NoValueBeforeTheFirstReset := by
  refine fun s hv => ⟨fun x => exec_upd_of_no_value x hv, exec_val_of_no_value hv, exec_chk_of_no_value hv,
    ⟨_, exec_rst s, rfl, clear_sum1 s.accs, clear_sum2 s.accs⟩, fun p rest hi hp => ?_⟩
  obtain ⟨t, ht, hvt, h1, h2, -⟩ := step_of_rst_empties hi hp
  exact ⟨t, ht, hvt, h1, h2⟩

end Sys2Proof.Proofs
end
